-- ==== Sys2Proof/Word.lean ====
section
/-! DEFINITION. The word types of BSX (spec/00_scope.md R5, R6; spec/10_state.md R11, R12). All values are unsigned. -/

namespace Sys2Proof

/-- A command word on CMD: 64 bits, presented whole (R38, R53). Bit 0 is the least significant (R6). -/
abbrev CmdWord := BitVec 64

/-- The CP field of BB_CHAR: an unsigned 32-bit code point (R56). -/
abbrev CodePoint := BitVec 32

/-- BB_COUNT, EX_COUNT and EX_PIXCNT: 32-bit unsigned counters (R5 CNT_W, R12). -/
abbrev Counter := BitVec 32

/-- EX_W and EX_H: 16-bit unsigned dimensions (R5 DIM_W, R12). -/
abbrev Dim := BitVec 16

/-- The MODE field of EX_START: the image mode the I/O collaborator reported, 0 for RGB (R57). -/
abbrev ImageMode := BitVec 2

/-- A channel value, an emitted character, the shift register EX_SR: 8 bits unsigned (R5 CH_BITS, R12). -/
abbrev Byte := BitVec 8

/-- One bit of a bitstream: true is 1 (R7). -/
abbrev Bit := Bool

/-- The index on STAT: 3 bits (R11). -/
abbrev StatIndex := BitVec 3

/-- The value read on STAT: 32 bits (R11). -/
abbrev StatWord := BitVec 32

end Sys2Proof
end

