-- ==== Sys2Proof/Syntax.lean ====
section
/-! DEFINITION. The command set of BSX, one constructor per row of spec/opcode_table.json (spec/30_encoding.md R59).
An operand is the field of the command word, at the field's own width (R55 to R58). -/

namespace Sys2Proof

/-- The seven commands. -/
inductive Instr where
  /-- NOP (43_control.md R84). -/
  | nop
  /-- BB_START (41_builder.md R71). -/
  | bbStart
  /-- BB_CHAR cp (41_builder.md R72). -/
  | bbChar (cp : CodePoint)
  /-- BB_END (41_builder.md R73). -/
  | bbEnd
  /-- EX_START W, H, mode=m (42_extractor.md R79). -/
  | exStart (mode : ImageMode) (w h : Dim)
  /-- EX_PIX r, g, b (42_extractor.md R80). -/
  | exPix (r g b : Byte)
  /-- ERR_CLR (43_control.md R85). -/
  | errClr
  deriving DecidableEq, Repr

end Sys2Proof
end

