-- ==== Sys2Proof/WellFormed.lean ====
section
/-! DEFINITION. Which operands are encodable (spec/30_encoding.md R61 to R63). An Instr holds each operand at the width of
its field, so an operand that does not fit cannot be written as an Instr; the checks below are the ones the assembler
makes on the numbers of a source line before it builds an Instr. -/

namespace Sys2Proof

/-- Every Instr is a legal command: values that a command rejects (CP > 255, MODE other than 0, W = 0, H = 0) are legal
encodings, rejected by value when performed (R62). One line per constructor, so that a new one cannot slip past. -/
def Instr.wellFormed : Instr → Bool
  | .nop => true
  | .bbStart => true
  | .bbChar _ => true
  | .bbEnd => true
  | .exStart _ _ _ => true
  | .exPix _ _ _ => true
  | .errClr => true

/-- A code point fits CP: cp < 2^32 (R63). -/
def codePointFits (cp : Nat) : Bool := decide (cp < 2 ^ 32)

/-- A dimension fits W or H: below 2^16 (R63). -/
def dimFits (v : Nat) : Bool := decide (v < 2 ^ 16)

/-- A mode fits MODE: m < 4 (R63). -/
def modeFits (m : Nat) : Bool := decide (m < 4)

/-- A channel value fits R, G or B: below 256 (R63). -/
def channelFits (v : Nat) : Bool := decide (v < 256)

/-- The operand of .word is a 64-bit word (R63). -/
def wordFits (v : Nat) : Bool := decide (v < 2 ^ 64)

end Sys2Proof
end

