-- ==== Sys2Proof/Decode.lean ====
section
/-! DEFINITION. Decoding a command word, the opcode table, and the encoder (spec/30_encoding.md R53 to R61). -/

namespace Sys2Proof

/-- Why a word is illegal: the two cases of R61. -/
inductive IllegalWord where
  /-- (a) the opcode is none of the seven. -/
  | unassignedOpcode
  /-- (b) the opcode is assigned and a bit of its format's RSV field is 1. -/
  | reservedBitSet
  deriving DecidableEq, Repr

/-! ### Fields (R54 to R58, R60); none is sign-extended, scaled or shifted -/

/-- OPC = w[63:56] (R54). -/
def fieldOpc (w : CmdWord) : BitVec 8 := w.extractLsb' 56 8
/-- CP = w[31:0] (R56). -/
def fieldCp (w : CmdWord) : CodePoint := w.extractLsb' 0 32
/-- MODE = w[33:32] (R57). -/
def fieldMode (w : CmdWord) : ImageMode := w.extractLsb' 32 2
/-- W = w[31:16] (R57). -/
def fieldW (w : CmdWord) : Dim := w.extractLsb' 16 16
/-- H = w[15:0] (R57). -/
def fieldH (w : CmdWord) : Dim := w.extractLsb' 0 16
/-- R = w[23:16] (R58). -/
def fieldR (w : CmdWord) : Byte := w.extractLsb' 16 8
/-- G = w[15:8] (R58). -/
def fieldG (w : CmdWord) : Byte := w.extractLsb' 8 8
/-- B = w[7:0] (R58). -/
def fieldB (w : CmdWord) : Byte := w.extractLsb' 0 8

/-- RSV = w[55:0] of format N (R55). -/
def fieldRsvN (w : CmdWord) : BitVec 56 := w.extractLsb' 0 56
/-- RSV = w[55:32] of format C (R56). -/
def fieldRsvC (w : CmdWord) : BitVec 24 := w.extractLsb' 32 24
/-- RSV = w[55:34] of format S (R57). -/
def fieldRsvS (w : CmdWord) : BitVec 22 := w.extractLsb' 34 22
/-- RSV = w[55:24] of format P (R58). -/
def fieldRsvP (w : CmdWord) : BitVec 32 := w.extractLsb' 24 32

/-- The four formats (R55 to R58). -/
inductive Format where
  | n
  | c
  | s
  | p
  deriving DecidableEq, Repr

/-- The reserved bits of a word in a format are all 0. -/
def rsvClear (f : Format) (w : CmdWord) : Bool :=
  match f with
  | .n => fieldRsvN w == 0
  | .c => fieldRsvC w == 0
  | .s => fieldRsvS w == 0
  | .p => fieldRsvP w == 0

/-- A command is given only when its format's reserved bits are 0 (R61 case b). -/
def checkRsv (f : Format) (w : CmdWord) (i : Instr) : Except IllegalWord Instr :=
  if rsvClear f w then .ok i else .error .reservedBitSet

/-- Decoding is total on all 2^64 words (R60); the opcode alone selects the format and the command (R54). -/
def decode (w : CmdWord) : Except IllegalWord Instr :=
  if fieldOpc w = 0x00#8 then checkRsv .n w .nop
  else if fieldOpc w = 0x01#8 then checkRsv .n w .bbStart
  else if fieldOpc w = 0x02#8 then checkRsv .c w (.bbChar (fieldCp w))
  else if fieldOpc w = 0x03#8 then checkRsv .n w .bbEnd
  else if fieldOpc w = 0x10#8 then checkRsv .s w (.exStart (fieldMode w) (fieldW w) (fieldH w))
  else if fieldOpc w = 0x11#8 then checkRsv .p w (.exPix (fieldR w) (fieldG w) (fieldB w))
  else if fieldOpc w = 0x20#8 then checkRsv .n w .errClr
  else .error .unassignedOpcode

/-! ### The opcode table (R59) -/

/-- The seven mnemonics, without operands. -/
inductive Mnemonic where
  | NOP
  | BB_START
  | BB_CHAR
  | BB_END
  | EX_START
  | EX_PIX
  | ERR_CLR
  deriving DecidableEq, Repr

/-- One row of R59: a word w is the row's command exactly when (w & mask) = pattern. -/
structure OpcodeRow where
  mnemonic : Mnemonic
  format : Format
  /-- The table's column "match". -/
  pattern : CmdWord
  mask : CmdWord
  deriving DecidableEq, Repr

/-- The complete command set as R59 tabulates it. -/
def opcodeTable : List OpcodeRow :=
  [⟨.NOP, .n, 0x0000000000000000#64, 0xFFFFFFFFFFFFFFFF#64⟩,
   ⟨.BB_START, .n, 0x0100000000000000#64, 0xFFFFFFFFFFFFFFFF#64⟩,
   ⟨.BB_CHAR, .c, 0x0200000000000000#64, 0xFFFFFFFF00000000#64⟩,
   ⟨.BB_END, .n, 0x0300000000000000#64, 0xFFFFFFFFFFFFFFFF#64⟩,
   ⟨.EX_START, .s, 0x1000000000000000#64, 0xFFFFFFFC00000000#64⟩,
   ⟨.EX_PIX, .p, 0x1100000000000000#64, 0xFFFFFFFFFF000000#64⟩,
   ⟨.ERR_CLR, .n, 0x2000000000000000#64, 0xFFFFFFFFFFFFFFFF#64⟩]

/-- A word matches a row (R59). -/
def OpcodeRow.matchesWord (r : OpcodeRow) (w : CmdWord) : Bool := w &&& r.mask == r.pattern

/-- The mnemonic of a command. -/
def Instr.mnemonic : Instr → Mnemonic
  | .nop => .NOP
  | .bbStart => .BB_START
  | .bbChar _ => .BB_CHAR
  | .bbEnd => .BB_END
  | .exStart _ _ _ => .EX_START
  | .exPix _ _ _ => .EX_PIX
  | .errClr => .ERR_CLR

/-- The opcode of a command (R59). -/
def Instr.opcode : Instr → BitVec 8
  | .nop => 0x00#8
  | .bbStart => 0x01#8
  | .bbChar _ => 0x02#8
  | .bbEnd => 0x03#8
  | .exStart _ _ _ => 0x10#8
  | .exPix _ _ _ => 0x11#8
  | .errClr => 0x20#8

/-- The fields below the opcode, laid out from bit 55 down as the command's format lays them out (R55 to R58). -/
def Instr.payload : Instr → BitVec 56
  | .nop => 0#56
  | .bbStart => 0#56
  | .bbChar cp => 0#24 ++ cp
  | .bbEnd => 0#56
  | .exStart mode w h => 0#22 ++ mode ++ w ++ h
  | .exPix r g b => 0#32 ++ r ++ g ++ b
  | .errClr => 0#56

/-- The command word of a command: the opcode in bits [63:56], then the payload (R54). -/
def encode (i : Instr) : CmdWord := i.opcode ++ i.payload

/-- The command the decoder reads from a table word of nbits bits; a BSX command is one 64-bit word, whose bit 0 is the
least significant (R6, R53). More than 64 bits, or a number that does not fit nbits, is no command word. -/
def decodeTableWord (nbits w : Nat) : Option Instr :=
  if nbits ≤ 64 ∧ w < 2 ^ nbits then
    match decode (BitVec.ofNat 64 w) with
    | .ok i => some i
    | .error _ => none
  else none

end Sys2Proof
end

