-- ==== Sys2Proof/Config.lean ====
section
/-! DEFINITION. The implementation parameters of spec/00_scope.md R5. Every one has a value there: no parameter is left
open to the model, so this file holds no free value. -/

namespace Sys2Proof.Config

/-- CHANNELS: 3 channels per pixel, in the order R, G, B. -/
def channels : Nat := 3

/-- CHAR_BITS: 8 bits per character, most significant first. -/
def charBits : Nat := 8

/-- The greatest code point BB encodes: 8 bits (R70, R72). -/
def maxCodePoint : Nat := 255

/-- MARKER: the 16-bit sequence 1111111111111110, first emitted bit first. -/
def marker : List Bit :=
  [true, true, true, true, true, true, true, true,
   true, true, true, true, true, true, true, false]

/-- MARK_BYTE: 11111110 = 0xFE = 254, the low byte of the end marker. -/
def markByte : Byte := 0xFE#8

/-- The greatest value of a CNT_W = 32 bit counter, 2^32 - 1 (R9). -/
def counterMax : Nat := 2 ^ 32 - 1

/-- The MODE value that reports a 3-channel 8-bit RGB grid (R57). -/
def rgbMode : ImageMode := 0#2

/-- NSTAT: 8 status registers, index 0..7. -/
def nstat : Nat := 8

end Sys2Proof.Config
end

