-- ==== Sys2Proof/Machine/State.lean ====
section
/-! DEFINITION. The state of BSX (spec/10_state.md R12): the fifteen fields of the record S, grouped by the unit that owns
them (R10, R28), and beside them the model's own record of the host's side of the ports (assumption log 1 and 2). -/

namespace Sys2Proof.Machine

/-- BB_ST (R17). Encodings 5, 6 and 7 do not exist as states (93_implementation_defined.md I6). -/
inductive BbSt where
  /-- No session has started since reset. -/
  | idle
  /-- A session is open and accepts BB_CHAR and BB_END. -/
  | active
  /-- BB_END appended the marker. -/
  | done
  /-- A BB_CHAR carried a code point above 255: EncodingError. -/
  | encErr
  /-- BB_COUNT would have exceeded 2^32 - 1. -/
  | ovfErr
  deriving DecidableEq, Repr

/-- EX_ST (R20). -/
inductive ExSt where
  /-- No session since reset. -/
  | idle
  /-- A grid was accepted and not all its pixels have been consumed. -/
  | active
  /-- All pixels have been consumed. -/
  | done
  /-- EX_START rejected the grid: FormatError. -/
  | fmtErr
  deriving DecidableEq, Repr

/-- The builder's fields. -/
structure Builder where
  /-- BB_ST. -/
  st : BbSt
  /-- BB_OUT, first emitted bit first (R18). -/
  out : List Bit
  /-- BB_COUNT (R19). -/
  count : Counter
  deriving DecidableEq, Repr

/-- The extractor's fields. -/
structure Extractor where
  /-- EX_ST. -/
  st : ExSt
  /-- EX_W (R21). -/
  w : Dim
  /-- EX_H (R21). -/
  h : Dim
  /-- EX_PIXCNT (R22). -/
  pixcnt : Counter
  /-- EX_OUT, first emitted byte first (R23). -/
  out : List Byte
  /-- EX_COUNT (R23). -/
  count : Counter
  /-- EX_MARK (R24). -/
  mark : Bit
  /-- EX_SR (R25). -/
  sr : Byte
  /-- EX_NB, 0..7 (R25). -/
  nb : Fin 8
  deriving DecidableEq, Repr

/-- The three sticky error flags (R26). -/
structure ErrFlags where
  /-- ERR_ILL. -/
  ill : Bit
  /-- ERR_SEQB. -/
  seqb : Bit
  /-- ERR_SEQX. -/
  seqx : Bit
  deriving DecidableEq, Repr

/-- What the host can present to BSX (R11): a command word on CMD, a RESET event, a read of STAT. -/
inductive HostInput where
  | cmd (w : CmdWord)
  | reset
  | readStat (idx : StatIndex)
  deriving DecidableEq, Repr

/-- What a port carries to the host (R11): a bit on BIT_OUT, a byte on CHAR_OUT, a value on STAT. -/
inductive PortEvent where
  | bit (b : Bit)
  | char (c : Byte)
  | stat (idx : StatIndex) (value : StatWord)
  deriving DecidableEq, Repr

/-- The state: BSX's own fifteen fields (bb, ex, err) and the host's side of the ports (hostIn, portLog). -/
structure State where
  bb : Builder
  ex : Extractor
  err : ErrFlags
  /-- MODEL'S OWN (assumption log 1): the inputs the host has yet to present, the next one first. -/
  hostIn : List HostInput
  /-- MODEL'S OWN (assumption log 2): everything the ports have carried, oldest first (R48). -/
  portLog : List PortEvent
  deriving DecidableEq, Repr

/-- BSX raises no fault: an error is a value on STAT, not a trap (60_exceptions.md R94; assumption log 5). -/
inductive Fault where
  deriving DecidableEq, Repr

/-- Why a command has no meaning in the model. -/
inductive Refusal where
  /-- Raised by an arm of exec for an instruction without a meaning: no arm raises it. Safe: the run stops. -/
  | notModelled (mnemonic : String)
  deriving DecidableEq, Repr

/-- The error conditions of 60_exceptions.md R88, all of them. -/
inductive ErrorCond where
  /-- EncodingError: a code point above 255 in an open builder session. -/
  | encoding
  /-- The builder counter would exceed 2^32 - 1. -/
  | overflow
  /-- FormatError: the reported mode is not RGB, or W = 0, or H = 0. -/
  | format
  /-- An illegal command word. -/
  | illegal
  /-- BB_CHAR or BB_END with BB_ST IDLE or DONE. -/
  | sequenceB
  /-- EX_PIX with EX_ST IDLE or DONE. -/
  | sequenceX
  deriving DecidableEq, Repr

/-- The builder after reset (R12, R100). -/
def Builder.reset : Builder := { st := .idle, out := [], count := 0#32 }

/-- The extractor after reset (R12, R100). -/
def Extractor.reset : Extractor :=
  { st := .idle, w := 0#16, h := 0#16, pixcnt := 0#32, out := [], count := 0#32, mark := false, sr := 0#8, nb := 0 }

/-- The flags after reset (R12, R100). -/
def ErrFlags.reset : ErrFlags := { ill := false, seqb := false, seqx := false }

/-- BSX right after power-on, which is a reset (R100), with no input presented and nothing on the ports. -/
def State.reset : State :=
  { bb := Builder.reset, ex := Extractor.reset, err := ErrFlags.reset, hostIn := [], portLog := [] }

end Sys2Proof.Machine
end

