-- ==== Sys2Proof/Machine/Flags.lean ====
section
/-! DEFINITION. The status registers on STAT, each a view of the state (spec/10_state.md R29 to R32). -/

namespace Sys2Proof.Machine

/-- The encoding of BB_ST on STATUS (R17). -/
def BbSt.code : BbSt → BitVec 3
  | .idle => 0#3
  | .active => 1#3
  | .done => 2#3
  | .encErr => 3#3
  | .ovfErr => 4#3

/-- The encoding of EX_ST on STATUS (R20). -/
def ExSt.code : ExSt → BitVec 2
  | .idle => 0#2
  | .active => 1#2
  | .done => 2#2
  | .fmtErr => 3#2

/-- STATUS, from bit 31 down: [31:11] 0, ERR_SEQX, ERR_SEQB, ERR_ILL, [7] 0, EX_MARK, EX_ST, [3] 0, BB_ST (R30). -/
def statusWord (s : State) : StatWord :=
  0#21 ++ BitVec.ofBool s.err.seqx ++ BitVec.ofBool s.err.seqb ++ BitVec.ofBool s.err.ill ++ 0#1
    ++ BitVec.ofBool s.ex.mark ++ s.ex.st.code ++ 0#1 ++ s.bb.st.code

/-- EX_DIM = {EX_W, EX_H} (R29, R31). -/
def dimWord (s : State) : StatWord := s.ex.w ++ s.ex.h

/-- The value STAT returns at an index; 5, 6 and 7 read 0 in every state (R29, R32). -/
def stat (s : State) (idx : StatIndex) : StatWord :=
  match idx.toNat with
  | 0 => statusWord s
  | 1 => s.bb.count
  | 2 => s.ex.count
  | 3 => s.ex.pixcnt
  | 4 => dimWord s
  | _ => 0#32

end Sys2Proof.Machine
end

