-- ==== Sys2Proof/Machine/Operands.lean ====
section
/-! DEFINITION. Operand values as bits: bits8, byte and the LSB of a channel (spec/00_scope.md R7; spec/40_traversal.md R69). -/

namespace Sys2Proof.Machine

/-- bits8(c) = [c[7], c[6], ..., c[0]], most significant bit first (R7, R35). -/
def bits8 (c : Nat) : List Bit :=
  [c.testBit 7, c.testBit 6, c.testBit 5, c.testBit 4, c.testBit 3, c.testBit 2, c.testBit 1, c.testBit 0]

/-- The unsigned value of a bit sequence whose first bit is the most significant. -/
def bitsValue (l : List Bit) : Nat := l.foldl (fun acc b => 2 * acc + b.toNat) 0

/-- byte(b0..b7): b0*128 + b1*64 + ... + b7*1, the first bit of the group most significant (R7, R36). -/
def byteOf (l : List Bit) : Byte := BitVec.ofNat 8 (bitsValue l)

/-- The bit taken from a channel value: v & 1 = v[0] (R69). -/
def lsb (v : Byte) : Bit := v.getLsbD 0

/-- The code point is above 255: the source's EncodingError (R72). -/
def codePointTooLarge (cp : CodePoint) : Bool := decide (cp.toNat > Config.maxCodePoint)

/-- Adding n would take the counter above 2^32 - 1 (R9). -/
def counterOverflows (c : Counter) (n : Nat) : Bool := decide (c.toNat + n > Config.counterMax)

/-- The grid EX_START rejects: MODE other than RGB, or W = 0, or H = 0 (R78, R79). -/
def gridRejected (mode : ImageMode) (w h : Dim) : Bool := mode != Config.rgbMode || w == 0#16 || h == 0#16

end Sys2Proof.Machine
end

