-- ==== Sys2Proof/Machine/Ops.lean ====
section
/-! DEFINITION. The shared operations on the state: emitting on a port, recording an error, the extractor's collection of
a bit, reset, a STAT read (spec/00_scope.md R8; spec/42_extractor.md R80; spec/60_exceptions.md R88; spec/70 R100). -/

namespace Sys2Proof.Machine

/-- emit_bit over a sequence: each bit goes out on BIT_OUT and onto the record BB_OUT, in order (R8, R18, R44). -/
def emitBits (l : List Bit) (s : State) : State :=
  { s with bb.out := s.bb.out ++ l, portLog := s.portLog ++ l.map PortEvent.bit }

/-- emit_char: the byte goes out on CHAR_OUT and onto the record EX_OUT (R8, R23). -/
def emitChar (c : Byte) (s : State) : State :=
  { s with ex.out := s.ex.out ++ [c], portLog := s.portLog ++ [PortEvent.char c] }

/-- A counter raised by n. The callers check first that the sum does not pass 2^32 - 1 (R9, R72, R73); the extractor's
counters cannot reach it (R22, R23; assumption log 4). -/
def counterAdd (c : Counter) (n : Nat) : Counter := BitVec.ofNat 32 (c.toNat + n)

/-- BB_COUNT raised by n. -/
def addBbCount (n : Nat) (s : State) : State := { s with bb.count := counterAdd s.bb.count n }

/-- EX_COUNT raised by one. -/
def addExCount (s : State) : State := { s with ex.count := counterAdd s.ex.count 1 }

/-- Recording an error: the ONE operation behind every error condition. It writes the field of R88's row and nothing else
(R92); no state is saved, no mode changes, no command stream is redirected, and there is no trap return (R94, R95). -/
def recordError (e : ErrorCond) (s : State) : State :=
  match e with
  | .encoding => { s with bb.st := .encErr }
  | .overflow => { s with bb.st := .ovfErr }
  | .format => { s with ex.st := .fmtErr }
  | .illegal => { s with err.ill := true }
  | .sequenceB => { s with err.seqb := true }
  | .sequenceX => { s with err.seqx := true }

/-- Clearing the sticky flags (R85). -/
def clearErrors (s : State) : State := { s with err := ErrFlags.reset }

/-- EX_SR after taking in the LSB of a channel: ((EX_SR << 1) | (v & 1)) & 0xFF (R80). -/
def shiftIn (sr v : Byte) : Byte := ((sr <<< 1) ||| (v &&& 1#8)) &&& 0xFF#8

/-- A complete group: the marker byte sets EX_MARK, any other byte is emitted and counted; then the group is cleared (R80). -/
def completeGroup (b : Byte) (s : State) : State :=
  let t := if b = Config.markByte then { s with ex.mark := true } else addExCount (emitChar b s)
  { t with ex.sr := 0#8, ex.nb := 0 }

/-- The body of EX_PIX's loop for one channel value (R80). -/
def collectBit (v : Byte) (s : State) : State :=
  if s.ex.mark then s
  else if s.ex.nb.val + 1 = Config.charBits then completeGroup (shiftIn s.ex.sr v) s
  else { s with ex.sr := shiftIn s.ex.sr v, ex.nb := s.ex.nb + 1 }

/-- One more pixel has been consumed (R22, R80). -/
def countPixel (s : State) : State := { s with ex.pixcnt := counterAdd s.ex.pixcnt 1 }

/-- The whole grid has been consumed (R80). The product is exact. -/
def gridConsumed (s : State) : Bool := decide (s.ex.pixcnt.toNat = s.ex.w.toNat * s.ex.h.toNat)

/-- At the grid's last pixel the session is DONE and the trailing incomplete group is discarded (R41, R80). -/
def closeGrid (s : State) : State :=
  if gridConsumed s then { s with ex.st := .done, ex.sr := 0#8, ex.nb := 0 } else s

/-- A RESET event: every field of R12 to its reset value; what the ports carried stays carried, and the host's later
inputs are the host's (R100). -/
def takeReset (s : State) : State :=
  { s with bb := Builder.reset, ex := Extractor.reset, err := ErrFlags.reset }

/-- A STAT read: the value goes to the host and no field of R12 changes (R45). -/
def readStat (idx : StatIndex) (s : State) : State :=
  { s with portLog := s.portLog ++ [PortEvent.stat idx (stat s idx)] }

end Sys2Proof.Machine
end

