-- ==== Sys2Proof/Machine/Builder.lean ====
section
/-! DEFINITION. The meanings of BB_START, BB_CHAR and BB_END (spec/41_builder.md R71 to R73). -/

namespace Sys2Proof.Machine

/-- BB_START: a new session in every BB_ST value; the previous session's record and count are discarded (R27, R71). -/
def execBbStart (s : State) : Host.Outcome State Fault Refusal :=
  .next { s with bb := { st := .active, out := [], count := 0#32 } }

/-- BB_CHAR: the checks in the order of R72 and R93. -/
def execBbChar (cp : CodePoint) (s : State) : Host.Outcome State Fault Refusal :=
  match s.bb.st with
  | .idle => .next (recordError .sequenceB s)
  | .done => .next (recordError .sequenceB s)
  | .encErr => .next s
  | .ovfErr => .next s
  | .active =>
    if codePointTooLarge cp then .next (recordError .encoding s)
    else if counterOverflows s.bb.count 8 then .next (recordError .overflow s)
    else .next (addBbCount 8 (emitBits (bits8 cp.toNat) s))

/-- BB_END: the marker, then DONE (R73). -/
def execBbEnd (s : State) : Host.Outcome State Fault Refusal :=
  match s.bb.st with
  | .idle => .next (recordError .sequenceB s)
  | .done => .next (recordError .sequenceB s)
  | .encErr => .next s
  | .ovfErr => .next s
  | .active =>
    if counterOverflows s.bb.count 16 then .next (recordError .overflow s)
    else
      let t := addBbCount 16 (emitBits Config.marker s)
      .next { t with bb.st := .done }

end Sys2Proof.Machine
end

