-- ==== Sys2Proof/Machine/Control.lean ====
section
/-! DEFINITION. The meanings of NOP and ERR_CLR, and what an illegal word does (spec/43_control.md R84, R85;
spec/60_exceptions.md R90). -/

namespace Sys2Proof.Machine

/-- NOP: nothing (R84). -/
def execNop (s : State) : Host.Outcome State Fault Refusal := .next s

/-- ERR_CLR: the three sticky flags to 0, the unit states unchanged (R85). -/
def execErrClr (s : State) : Host.Outcome State Fault Refusal := .next (clearErrors s)

/-- An illegal word sets ERR_ILL and has no other effect; the host continues with the next word (R90). -/
def takeIllegal (s : State) : Host.Outcome State Fault Refusal := .next (recordError .illegal s)

end Sys2Proof.Machine
end

