-- ==== Sys2Proof/Machine/Extractor.lean ====
section
/-! DEFINITION. The meanings of EX_START and EX_PIX (spec/42_extractor.md R79, R80). -/

namespace Sys2Proof.Machine

/-- The extractor as EX_START leaves it before its check: the dimensions latched, the session's fields cleared (R79). -/
def openGrid (w h : Dim) (s : State) : State :=
  { s with ex := { st := .active, w := w, h := h, pixcnt := 0#32, out := [], count := 0#32,
                   mark := false, sr := 0#8, nb := 0 } }

/-- EX_START: a new session in every EX_ST value; a grid that is not RGB, or of zero width or height, is rejected (R79). -/
def execExStart (mode : ImageMode) (w h : Dim) (s : State) : Host.Outcome State Fault Refusal :=
  if gridRejected mode w h then .next (recordError .format (openGrid w h s))
  else .next (openGrid w h s)

/-- EX_PIX: the LSBs of R, G and B in that order, then the pixel is counted, then the grid is closed at its last pixel (R80). -/
def execExPix (r g b : Byte) (s : State) : Host.Outcome State Fault Refusal :=
  match s.ex.st with
  | .idle => .next (recordError .sequenceX s)
  | .done => .next (recordError .sequenceX s)
  | .fmtErr => .next s
  | .active => .next (closeGrid (countPixel (collectBit b (collectBit g (collectBit r s)))))

end Sys2Proof.Machine
end

