-- ==== Sys2Proof/Machine/Dispatch.lean ====
section
/-! DEFINITION. The dispatch: one arm per command. -/

namespace Sys2Proof.Machine

/-- Performing one decoded command (spec/10_state.md R10: one atomic step). -/
def exec (i : Instr) (s : State) : Host.Outcome State Fault Refusal :=
  match i with
  | .nop => Sys2Proof.Machine.execNop s
  | .bbStart => Sys2Proof.Machine.execBbStart s
  | .bbChar cp => Sys2Proof.Machine.execBbChar cp s
  | .bbEnd => Sys2Proof.Machine.execBbEnd s
  | .exStart mode w h => Sys2Proof.Machine.execExStart mode w h s
  | .exPix r g b => Sys2Proof.Machine.execExPix r g b s
  | .errClr => Sys2Proof.Machine.execErrClr s

end Sys2Proof.Machine
end

