-- ==== Sys2Proof/Machine/HostPort.lean ====
section
/-! DEFINITION. Taking the host's next input: a command word, a RESET event or a STAT read (spec/10_state.md R11, R14;
spec/20_memory.md R44, R48; assumption log 1 and 3). -/

namespace Sys2Proof.Machine

/-- A command word: the decode check comes first, then the command's own checks (R60, R90, R93). -/
def performWord (w : CmdWord) (s : State) : Host.Outcome State Fault Refusal :=
  match decode w with
  | .ok i => exec i s
  | .error _ => takeIllegal s

/-- One input performed. -/
def performInput (x : HostInput) (s : State) : Host.Outcome State Fault Refusal :=
  match x with
  | .cmd w => performWord w s
  | .reset => .next (takeReset s)
  | .readStat idx => .next (readStat idx s)

/-- The host's next input is taken from the front and performed; where the host presents nothing, BSX waits and its state
is unchanged (R10, R107; assumption log 3). -/
def takeNextInput (s : State) : Host.Outcome State Fault Refusal :=
  match s.hostIn with
  | [] => .next s
  | x :: rest => performInput x { s with hostIn := rest }

/-- The host presents one more word, to be performed before the inputs it has pending. -/
def presentWord (w : CmdWord) (s : State) : State := { s with hostIn := .cmd w :: s.hostIn }

/-- The host presents a sequence of words, in order, before the inputs it has pending. -/
def presentWords (ws : List CmdWord) (s : State) : State := { s with hostIn := ws.map HostInput.cmd ++ s.hostIn }

end Sys2Proof.Machine
end

