-- ==== Sys2Proof/Machine/Step.lean ====
section
/-! DEFINITION. One step of the machine, and placing the next command word (assumption log 1). -/

namespace Sys2Proof.Machine

/-- One step: the host's next input is performed, atomically and completely (spec/10_state.md R10; spec/20_memory.md R48). -/
def step (s : State) : Host.Outcome State Fault Refusal := takeNextInput s

/-- s with a 64-bit command word presented as the next input on CMD. A BSX command is one word, so nbits is 64 and the
bits above nbits are 0. -/
def State.withFetchWord (s : State) (nbits w : Nat) : State :=
  presentWord (BitVec.ofNat 64 (w % 2 ^ nbits)) s

end Sys2Proof.Machine
end

