-- ==== Sys2Proof/Machine/Assembler.lean ====
section
/-! DEFINITION. The assembler of spec/30_encoding.md R63 and the pseudo-instructions of R64: a source line as text, as a
syntax tree, and as command words. What R63 does not say of the text is in assumption log 9. -/

namespace Sys2Proof.Machine

/-- A source line: a command with its operands as numbers, .word, or a pseudo-instruction (R63, R64). -/
inductive AsmLine where
  | nop
  | bbStart
  | bbChar (cp : Nat)
  | bbEnd
  | exStart (w h mode : Nat)
  | exPix (r g b : Nat)
  | errClr
  /-- .word v. -/
  | word (v : Nat)
  /-- BB_STR "text", the text as its characters' code points. -/
  | bbStr (text : List Nat)
  /-- BB_MSG "text". -/
  | bbMsg (text : List Nat)
  /-- EX_GRID W, H, mode=m, and the pixels (r, g, b) in traversal order. -/
  | exGrid (w h mode : Nat) (pixels : List (Nat × Nat × Nat))
  deriving DecidableEq, Repr

/-- All of a list's values, or none when one of them is missing. -/
def allSome {α : Type} : List (Option α) → Option (List α)
  | [] => some []
  | none :: _ => none
  | some a :: rest => (allSome rest).map (a :: ·)

/-- BB_CHAR cp; a code point that does not fit is an assembly error (R63). -/
def asmBbChar (cp : Nat) : Option CmdWord :=
  if codePointFits cp then some (encode (.bbChar (BitVec.ofNat 32 cp))) else none

/-- EX_START W, H, mode=m (R63). -/
def asmExStart (w h mode : Nat) : Option CmdWord :=
  if dimFits w && dimFits h && modeFits mode then
    some (encode (.exStart (BitVec.ofNat 2 mode) (BitVec.ofNat 16 w) (BitVec.ofNat 16 h)))
  else none

/-- EX_PIX r, g, b (R63). -/
def asmExPix (r g b : Nat) : Option CmdWord :=
  if channelFits r && channelFits g && channelFits b then
    some (encode (.exPix (BitVec.ofNat 8 r) (BitVec.ofNat 8 g) (BitVec.ofNat 8 b)))
  else none

/-- BB_STR: one BB_CHAR per character, in order (R64). -/
def asmBbStr (text : List Nat) : Option (List CmdWord) := allSome (text.map asmBbChar)

/-- EX_GRID: EX_START, then one EX_PIX per pixel in the order listed, W*H of them (R64). -/
def asmExGrid (w h mode : Nat) (pixels : List (Nat × Nat × Nat)) : Option (List CmdWord) :=
  if pixels.length = w * h then
    allSome (asmExStart w h mode :: pixels.map fun p => asmExPix p.1 p.2.1 p.2.2)
  else none

/-- The words of a line; none is an assembly error (R63). -/
def assembleLine : AsmLine → Option (List CmdWord)
  | .nop => some [encode .nop]
  | .bbStart => some [encode .bbStart]
  | .bbChar cp => (asmBbChar cp).map ([·])
  | .bbEnd => some [encode .bbEnd]
  | .exStart w h mode => (asmExStart w h mode).map ([·])
  | .exPix r g b => (asmExPix r g b).map ([·])
  | .errClr => some [encode .errClr]
  | .word v => if wordFits v then some [BitVec.ofNat 64 v] else none
  | .bbStr text => asmBbStr text
  | .bbMsg text => (asmBbStr text).map fun ws => [encode .bbStart] ++ ws ++ [encode .bbEnd]
  | .exGrid w h mode pixels => asmExGrid w h mode pixels

/-! ### The text of a line -/

/-- The tokens of a line. -/
inductive Token where
  | name (cs : List Char)
  | number (n : Nat)
  | chr (c : Nat)
  | str (cs : List Nat)
  | comma
  | equals
  | openBrace
  | closeBrace
  | openParen
  | closeParen
  deriving DecidableEq, Repr

/-- The value of a digit in a base up to 16. -/
def digitValue (base : Nat) (c : Char) : Option Nat :=
  let n := c.toNat
  let v := if 48 ≤ n ∧ n ≤ 57 then n - 48
    else if 97 ≤ n ∧ n ≤ 102 then n - 87
    else if 65 ≤ n ∧ n ≤ 70 then n - 55
    else 16
  if v < base then some v else none

/-- A nonempty run of digits in a base. -/
def digitsValue (base : Nat) : List Char → Option Nat
  | [] => none
  | c :: cs => (c :: cs).foldl (fun acc d => acc.bind fun a => (digitValue base d).map (base * a + ·)) (some 0)

/-- An integer: decimal, 0x hex or 0b binary (R63). -/
def integerValue : List Char → Option Nat
  | '0' :: 'x' :: ds => digitsValue 16 ds
  | '0' :: 'b' :: ds => digitsValue 2 ds
  | ds => digitsValue 10 ds

/-- A run of word characters is an integer when it begins with a digit, else a name. -/
def wordToken (cs : List Char) : Option Token :=
  match cs with
  | [] => none
  | c :: _ => if (digitValue 10 c).isSome then (integerValue cs).map .number else some (.name cs)

/-- A letter, a digit, an underscore or a dot. -/
def isWordChar (c : Char) : Bool :=
  let n := c.toNat
  (48 ≤ n && n ≤ 57) || (65 ≤ n && n ≤ 90) || (97 ≤ n && n ≤ 122) || n == 95 || n == 46

/-- Where the lexer stands. -/
inductive LexMode where
  | plain
  /-- In a word; its characters so far, last first. -/
  | word (acc : List Char)
  /-- After the opening quote of a character literal. -/
  | chrOpen
  /-- After the character of a character literal. -/
  | chrClose (c : Char)
  /-- In a string; its code points so far, last first. -/
  | str (acc : List Nat)
  /-- After ';' (R63). -/
  | comment
  deriving DecidableEq, Repr

/-- One character outside words, literals and comments: the tokens it gives and where the lexer stands after it. -/
def lexPlain (c : Char) : Option (List Token × LexMode) :=
  let n := c.toNat
  if n == 32 || n == 9 || n == 13 then some ([], .plain)
  else if n == 59 then some ([], .comment)
  else if n == 44 then some ([.comma], .plain)
  else if n == 61 then some ([.equals], .plain)
  else if n == 123 then some ([.openBrace], .plain)
  else if n == 125 then some ([.closeBrace], .plain)
  else if n == 40 then some ([.openParen], .plain)
  else if n == 41 then some ([.closeParen], .plain)
  else if n == 39 then some ([], .chrOpen)
  else if n == 34 then some ([], .str [])
  else if isWordChar c then some ([], .word [c])
  else none

/-- One character in any mode. -/
def lexChar (m : LexMode) (c : Char) : Option (List Token × LexMode) :=
  match m with
  | .plain => lexPlain c
  | .word acc =>
    if isWordChar c then some ([], .word (c :: acc))
    else (wordToken acc.reverse).bind fun t => (lexPlain c).map fun r => (t :: r.1, r.2)
  | .chrOpen => some ([], .chrClose c)
  | .chrClose a => if c.toNat == 39 then some ([.chr a.toNat], .plain) else none
  | .str acc => if c.toNat == 34 then some ([.str acc.reverse], .plain) else some ([], .str (c.toNat :: acc))
  | .comment => some ([], .comment)

/-- The tokens of a line from a mode; none is an assembly error. -/
def lexFrom : LexMode → List Char → Option (List Token)
  | .plain, [] => some []
  | .comment, [] => some []
  | .word acc, [] => (wordToken acc.reverse).map ([·])
  | .chrOpen, [] => none
  | .chrClose _, [] => none
  | .str _, [] => none
  | m, c :: cs =>
    match lexChar m c with
    | none => none
    | some (toks, m') => (lexFrom m' cs).map (toks ++ ·)

/-- The pixels of an EX_GRID line, from the first to the closing brace; a pixel is written (r, g, b) (assumption log 9). -/
def parsePixels : List Token → Option (List (Nat × Nat × Nat))
  | [.openParen, .number r, .comma, .number g, .comma, .number b, .closeParen, .closeBrace] => some [(r, g, b)]
  | .openParen :: .number r :: .comma :: .number g :: .comma :: .number b :: .closeParen :: .comma :: rest =>
    (parsePixels rest).map ((r, g, b) :: ·)
  | _ => none

/-- What follows the opening brace of an EX_GRID line. -/
def parseGrid : List Token → Option (List (Nat × Nat × Nat))
  | [.closeBrace] => some []
  | toks => parsePixels toks

/-- The line a sequence of tokens writes: the mnemonic, then comma-separated operands (R63, R64). -/
def parseTokens : List Token → Option AsmLine
  | [.name ['N', 'O', 'P']] => some .nop
  | [.name ['B', 'B', '_', 'S', 'T', 'A', 'R', 'T']] => some .bbStart
  | [.name ['B', 'B', '_', 'C', 'H', 'A', 'R'], .number cp] => some (.bbChar cp)
  | [.name ['B', 'B', '_', 'C', 'H', 'A', 'R'], .chr c] => some (.bbChar c)
  | [.name ['B', 'B', '_', 'E', 'N', 'D']] => some .bbEnd
  | [.name ['E', 'X', '_', 'S', 'T', 'A', 'R', 'T'], .number w, .comma, .number h] => some (.exStart w h 0)
  | [.name ['E', 'X', '_', 'S', 'T', 'A', 'R', 'T'], .number w, .comma, .number h, .comma,
      .name ['m', 'o', 'd', 'e'], .equals, .number m] => some (.exStart w h m)
  | [.name ['E', 'X', '_', 'P', 'I', 'X'], .number r, .comma, .number g, .comma, .number b] => some (.exPix r g b)
  | [.name ['E', 'R', 'R', '_', 'C', 'L', 'R']] => some .errClr
  | [.name ['.', 'w', 'o', 'r', 'd'], .number v] => some (.word v)
  | [.name ['B', 'B', '_', 'S', 'T', 'R'], .str t] => some (.bbStr t)
  | [.name ['B', 'B', '_', 'M', 'S', 'G'], .str t] => some (.bbMsg t)
  | .name ['E', 'X', '_', 'G', 'R', 'I', 'D'] :: .number w :: .comma :: .number h :: .comma :: .openBrace :: toks =>
    (parseGrid toks).map (.exGrid w h 0)
  | .name ['E', 'X', '_', 'G', 'R', 'I', 'D'] :: .number w :: .comma :: .number h :: .comma ::
      .name ['m', 'o', 'd', 'e'] :: .equals :: .number m :: .comma :: .openBrace :: toks =>
    (parseGrid toks).map (.exGrid w h m)
  | _ => none

/-- The words of a line of text; a blank or comment line gives none of them, and no result is an assembly error. -/
def assembleText (line : List Char) : Option (List CmdWord) :=
  match lexFrom .plain line with
  | none => none
  | some [] => some []
  | some toks => (parseTokens toks).bind assembleLine

/-- The words of a source file given line by line: one command per line (R63). -/
def assembleSource (lines : List (List Char)) : Option (List CmdWord) :=
  (allSome (lines.map assembleText)).map List.flatten

end Sys2Proof.Machine
end

