-- ==== Sys2Proof/Machine/Reference.lean ====
section
/-! DEFINITION. The functions the sessions compute: build (spec/41_builder.md R70), the traversal and its index
(spec/40_traversal.md R65, R66), extract (spec/42_extractor.md R75), and the source's Embedder as the non-normative harness
of spec/95_test_vectors.md L1.6, which R83 speaks of. No step of the machine calls them. -/

namespace Sys2Proof.Machine

/-! ### Builder -/

/-- bits8 of each code point, in message order (R35). -/
def messageBits (m : List Nat) : List Bit := m.flatMap bits8

/-- build(M): EncodingError when some code point is above 255, else the message's bits and the marker (R70). -/
def build (m : List Nat) : Except ErrorCond (List Bit) :=
  if m.any (fun c => decide (c > Config.maxCodePoint)) then .error .encoding
  else .ok (messageBits m ++ Config.marker)

/-! ### Grids and their traversal -/

/-- A channel of a pixel. -/
inductive Channel where
  | r
  | g
  | b
  deriving DecidableEq, Repr

/-- The channel's place in the fixed order R, G, B (R66). -/
def Channel.index : Channel → Nat
  | .r => 0
  | .g => 1
  | .b => 2

/-- The channel at a place 0, 1 or 2 (R66); the callers give t mod 3. -/
def Channel.ofIndex : Nat → Channel
  | 0 => .r
  | 1 => .g
  | _ => .b

/-- Three 8-bit unsigned channel values (00_scope.md, glossary). -/
structure Pixel where
  r : Byte
  g : Byte
  b : Byte
  deriving DecidableEq, Repr

/-- The value of one channel. -/
def Pixel.value (p : Pixel) : Channel → Byte
  | .r => p.r
  | .g => p.g
  | .b => p.b

/-- A grid of width × height pixels; pixel x y is the one at column x and row y, and only x < width, y < height are the
grid's. The grid is the host's and not a part of State (R12, R15). -/
structure Grid where
  width : Nat
  height : Nat
  pixel : Nat → Nat → Pixel

/-- A (pixel, channel) pair. -/
structure Place where
  x : Nat
  y : Nat
  ch : Channel
  deriving DecidableEq, Repr

/-- The traversal order: for y, for x, for channel in R, G, B (R65). -/
def traversal (w h : Nat) : List Place :=
  (List.range h).flatMap fun y => (List.range w).flatMap fun x => [⟨x, y, .r⟩, ⟨x, y, .g⟩, ⟨x, y, .b⟩]

/-- t = 3*(y*W + x) + c (R66). -/
def traversalIndex (w : Nat) (p : Place) : Nat := Config.channels * (p.y * w + p.x) + p.ch.index

/-- The pair at index t: p = t div 3, c = t mod 3, x = p mod W, y = p div W (R66). -/
def placeAt (w t : Nat) : Place :=
  ⟨t / Config.channels % w, t / Config.channels / w, Channel.ofIndex (t % Config.channels)⟩

/-- The flat sequence of LSBs of a grid in traversal order, of length 3*W*H (R75). -/
def Grid.lsbs (gr : Grid) : List Bit :=
  (traversal gr.width gr.height).map fun p => lsb ((gr.pixel p.x p.y).value p.ch)

/-- The grid's pixels in traversal order: row 0 first, and within a row x = 0 first (R64, R67). -/
def Grid.pixels (gr : Grid) : List Pixel :=
  (List.range gr.height).flatMap fun y => (List.range gr.width).map fun x => gr.pixel x y

/-- The LSBs of a stream of pixels, R, G, B of each (R37, R67). -/
def streamLsbs (ps : List Pixel) : List Bit := ps.flatMap fun p => [lsb p.r, lsb p.g, lsb p.b]

/-! ### Extractor -/

/-- Consecutive groups of 8 bits from index 0, each a byte whose first bit is the MSB; a trailing group of fewer than 8 bits
is dropped (R36, R39, R41, R75). -/
def groups8 : List Bit → List Byte
  | b0 :: b1 :: b2 :: b3 :: b4 :: b5 :: b6 :: b7 :: rest => byteOf [b0, b1, b2, b3, b4, b5, b6, b7] :: groups8 rest
  | _ => []

/-- The bytes up to the first MARK_BYTE, which stops the decoding and is not output; 0xFF is an ordinary byte (R75, R76). -/
def decodeBytes : List Byte → List Byte
  | [] => []
  | b :: rest => if b = Config.markByte then [] else b :: decodeBytes rest

/-- What a flat sequence of LSBs decodes to (R75). -/
def extractBits (l : List Bit) : List Byte := decodeBytes (groups8 l)

/-- extract(G) (R75). -/
def extract (gr : Grid) : List Byte := extractBits gr.lsbs

/-! ### The Embedder of the source's §4.3: a harness, outside BSX -/

/-- channel_value = (channel_value & 0xFE) | bit (R69, L1.6). -/
def writeLsb (v : Byte) (b : Bit) : Byte := (v &&& 0xFE#8) ||| (if b then 1#8 else 0#8)

/-- The channel at traversal index t takes bit t of the stream where there is one, else it keeps its value (L1.6). -/
def embedChannel (bits : List Bit) (t : Nat) (v : Byte) : Byte :=
  match bits[t]? with
  | some b => writeLsb v b
  | none => v

/-- embed(G, bits): none is CapacityError, raised before any pixel is touched (L1.6, L1.7). -/
def embed (gr : Grid) (bits : List Bit) : Option Grid :=
  if bits.length > Config.channels * gr.width * gr.height then none
  else some
    { gr with
      pixel := fun x y =>
        let p := gr.pixel x y
        if x < gr.width ∧ y < gr.height then
          { r := embedChannel bits (traversalIndex gr.width ⟨x, y, .r⟩) p.r
            g := embedChannel bits (traversalIndex gr.width ⟨x, y, .g⟩) p.g
            b := embedChannel bits (traversalIndex gr.width ⟨x, y, .b⟩) p.b }
        else p }

end Sys2Proof.Machine
end

