-- ==== Sys2Proof/Safety.lean ====
section
/-! DEFINITION. The terms the claims use: which unit a command belongs to, the result of a session (spec/10_state.md R27;
spec/70_reset_and_hazards.md R102), the capacity comparison of R103, and the invariants of the state. -/

namespace Sys2Proof.Machine

/-- A builder command. -/
def isBb : Instr → Bool
  | .nop => false
  | .bbStart => true
  | .bbChar _ => true
  | .bbEnd => true
  | .exStart _ _ _ => false
  | .exPix _ _ _ => false
  | .errClr => false

/-- An extractor command. -/
def isEx : Instr → Bool
  | .nop => false
  | .bbStart => false
  | .bbChar _ => false
  | .bbEnd => false
  | .exStart _ _ _ => true
  | .exPix _ _ _ => true
  | .errClr => false

/-! ### Results (R27, R102) -/

/-- The result of a builder session. -/
inductive BbResult where
  | bitstream (bits : List Bit)
  | encodingError
  | overflow
  deriving DecidableEq, Repr

/-- A builder session's result, or none where the session has no result yet: IDLE and ACTIVE (R102). After a failure the
record BB_OUT is not a result (93_implementation_defined.md I9). -/
def bbResult (s : State) : Option BbResult :=
  match s.bb.st with
  | .idle => none
  | .active => none
  | .done => some (.bitstream s.bb.out)
  | .encErr => some .encodingError
  | .ovfErr => some .overflow

/-- The result of an extractor session. -/
inductive ExResult where
  | characters (out : List Byte)
  | formatError
  deriving DecidableEq, Repr

/-- An extractor session's result, or none where it has no result yet: IDLE, and ACTIVE without EX_MARK (R102). -/
def exResult (s : State) : Option ExResult :=
  match s.ex.st with
  | .idle => none
  | .active => if s.ex.mark then some (.characters s.ex.out) else none
  | .done => some (.characters s.ex.out)
  | .fmtErr => some .formatError

/-- The comparison a downstream embedder makes before it touches a pixel (R19, R103 duty 4). -/
def fitsCapacity (s : State) (w h : Nat) : Bool := decide (s.bb.count.toNat ≤ Config.channels * w * h)

/-- A safe run has recorded no error: both units are free of error and no flag is set (R88). -/
def noError (s : State) : Bool :=
  s.bb.st != .encErr && s.bb.st != .ovfErr && s.ex.st != .fmtErr && s.err == ErrFlags.reset

/-! ### What the ports have carried -/

/-- The bits BIT_OUT has carried, oldest first. -/
def portBits (l : List PortEvent) : List Bit :=
  l.filterMap fun e => match e with
    | .bit b => some b
    | .char _ => none
    | .stat _ _ => none

/-- The bytes CHAR_OUT has carried, oldest first. -/
def portChars (l : List PortEvent) : List Byte :=
  l.filterMap fun e => match e with
    | .bit _ => none
    | .char c => some c
    | .stat _ _ => none

/-- The bits held in EX_SR, the first-collected first: EX_SR[EX_NB-1:0] (R25). -/
def pendingBits (e : Extractor) : List Bit := (List.range e.nb.val).map fun k => e.sr.getLsbD (e.nb.val - 1 - k)

/-! ### Invariants of every reachable state -/

/-- BB_COUNT is the length of BB_OUT (R19); BB_OUT is empty before the first session, the bits of some message of code points
up to 255 in an open or failed session, and build of such a message in DONE (R18). -/
def BuilderInv (b : Builder) : Prop :=
  b.count.toNat = b.out.length ∧
  match b.st with
  | .idle => b.out = []
  | .active => ∃ m : List Nat, (∀ c ∈ m, c ≤ 255) ∧ b.out = messageBits m
  | .encErr => ∃ m : List Nat, (∀ c ∈ m, c ≤ 255) ∧ b.out = messageBits m
  | .ovfErr => ∃ m : List Nat, (∀ c ∈ m, c ≤ 255) ∧ b.out = messageBits m
  | .done => ∃ m : List Nat, (∀ c ∈ m, c ≤ 255) ∧ build m = .ok b.out

/-- EX_COUNT is the length of EX_OUT (R23); 0xFE is never output (R76); EX_SR holds only EX_NB bits and both are 0 after the
marker (R25); and what R20, R22 and R23 say of each EX_ST value. -/
def ExtractorInv (e : Extractor) : Prop :=
  e.count.toNat = e.out.length ∧
  Config.markByte ∉ e.out ∧
  e.sr.toNat < 2 ^ e.nb.val ∧
  (e.mark = true → e.sr = 0#8 ∧ e.nb = 0) ∧
  match e.st with
  | .idle => e = Extractor.reset
  | .fmtErr => e.pixcnt = 0#32 ∧ e.out = [] ∧ e.mark = false ∧ e.sr = 0#8 ∧ e.nb = 0
  | .active => e.pixcnt.toNat < e.w.toNat * e.h.toNat ∧
      (e.mark = false → 8 * e.out.length + e.nb.val = 3 * e.pixcnt.toNat) ∧
      (e.mark = true → 8 * (e.out.length + 1) ≤ 3 * e.pixcnt.toNat)
  | .done => 0 < e.pixcnt.toNat ∧ e.pixcnt.toNat = e.w.toNat * e.h.toNat ∧ e.sr = 0#8 ∧ e.nb = 0 ∧
      (e.mark = false → e.out.length = 3 * e.pixcnt.toNat / 8) ∧
      (e.mark = true → 8 * (e.out.length + 1) ≤ 3 * e.pixcnt.toNat)

/-- The emission records are the last of what the ports have carried: BB_OUT of the bits, EX_OUT of the bytes (R18, R23). -/
def RecordInv (s : State) : Prop :=
  s.bb.out <:+ portBits s.portLog ∧ s.ex.out <:+ portChars s.portLog

end Sys2Proof.Machine
end

