-- ==== Sys2Proof/Certificates/Slice0/Obligations.lean ====
section
/-! DEFINITION. The statements for the provers. Each docstring names the rule of spec/ it comes from. -/

open Sys2Proof Sys2Proof.Machine

/-! ### Encoding -/

/-- R59, R60: every command, at every operand value, is read back from its word. -/
def Obligations.DecodeOfEncodeIsTheCommand : Prop :=
  ∀ i : Instr, i.wellFormed = true → decode (encode i) = .ok i

/-- R59: the other direction: a word that decodes is the encoding of what it decodes to, so no two words are one command. -/
def Obligations.EncodeOfDecodeIsTheWord : Prop :=
  ∀ (w : CmdWord) (i : Instr), decode w = .ok i → encode i = w

/-- R59: the table, a word is the command of a row exactly when (w & mask) = match, and at most one row matches any word. -/
def Obligations.DecodeAgreesWithTheOpcodeTable : Prop :=
  opcodeTable.map (fun r => (r.pattern.toNat / 2 ^ 56, r.mnemonic, r.format, r.pattern, r.mask)) =
    [(0x00, .NOP, .n, 0x0000000000000000#64, 0xFFFFFFFFFFFFFFFF#64),
     (0x01, .BB_START, .n, 0x0100000000000000#64, 0xFFFFFFFFFFFFFFFF#64),
     (0x02, .BB_CHAR, .c, 0x0200000000000000#64, 0xFFFFFFFF00000000#64),
     (0x03, .BB_END, .n, 0x0300000000000000#64, 0xFFFFFFFFFFFFFFFF#64),
     (0x10, .EX_START, .s, 0x1000000000000000#64, 0xFFFFFFFC00000000#64),
     (0x11, .EX_PIX, .p, 0x1100000000000000#64, 0xFFFFFFFFFF000000#64),
     (0x20, .ERR_CLR, .n, 0x2000000000000000#64, 0xFFFFFFFFFFFFFFFF#64)] ∧
  (∀ w : CmdWord, ∀ r ∈ opcodeTable,
    ((∃ i, decode w = .ok i ∧ i.mnemonic = r.mnemonic) ↔ w &&& r.mask = r.pattern)) ∧
  (∀ w : CmdWord, ∀ r ∈ opcodeTable, ∀ r' ∈ opcodeTable,
    w &&& r.mask = r.pattern → w &&& r'.mask = r'.pattern → r = r')

/-- R60: a row that matches gives its command, ILLEGAL is returned exactly when no row matches, and the operands are the word's
fields, unsigned. -/
def Obligations.DecodeIsTotalAndReadsTheFields : Prop :=
  (∀ w : CmdWord, ∀ r ∈ opcodeTable, w &&& r.mask = r.pattern → ∃ i, decode w = .ok i ∧ i.mnemonic = r.mnemonic) ∧
  (∀ w : CmdWord, (∃ e, decode w = .error e) ↔ ∀ r ∈ opcodeTable, w &&& r.mask ≠ r.pattern) ∧
  (∀ (w : CmdWord) (cp : CodePoint), decode w = .ok (.bbChar cp) → cp.toNat = w.toNat % 2 ^ 32) ∧
  (∀ (w : CmdWord) (mode : ImageMode) (wd ht : Dim), decode w = .ok (.exStart mode wd ht) →
    mode.toNat = w.toNat / 2 ^ 32 % 4 ∧ wd.toNat = w.toNat / 2 ^ 16 % 2 ^ 16 ∧ ht.toNat = w.toNat % 2 ^ 16) ∧
  (∀ (w : CmdWord) (r g b : Byte), decode w = .ok (.exPix r g b) →
    r.toNat = w.toNat / 2 ^ 16 % 256 ∧ g.toNat = w.toNat / 2 ^ 8 % 256 ∧ b.toNat = w.toNat % 256)

/-- R61: the two causes of an illegal word, by the word's own bits; 249 opcodes are unassigned. -/
def Obligations.IllegalWordsAreTheTwoCases : Prop :=
  (∀ w : CmdWord, decode w = .error .unassignedOpcode ↔
    w.toNat / 2 ^ 56 ∉ [0x00, 0x01, 0x02, 0x03, 0x10, 0x11, 0x20]) ∧
  (∀ w : CmdWord, decode w = .error .reservedBitSet ↔
    (w.toNat / 2 ^ 56 ∈ [0x00, 0x01, 0x03, 0x20] ∧ w.toNat % 2 ^ 56 ≠ 0) ∨
    (w.toNat / 2 ^ 56 = 0x02 ∧ w.toNat / 2 ^ 32 % 2 ^ 24 ≠ 0) ∨
    (w.toNat / 2 ^ 56 = 0x10 ∧ w.toNat / 2 ^ 34 % 2 ^ 22 ≠ 0) ∨
    (w.toNat / 2 ^ 56 = 0x11 ∧ w.toNat / 2 ^ 24 % 2 ^ 32 ≠ 0)) ∧
  ((List.range 256).filter fun o => !([0x00, 0x01, 0x02, 0x03, 0x10, 0x11, 0x20].contains o)).length = 249 ∧
  (∀ (w : CmdWord) (e : IllegalWord) (s : State), decode w = .error e →
    performWord w s = .next { s with err.ill := true })

/-- R63, R64: the assembler gives the words of R63's formulas, an operand that does not fit its field gives no word, and the
pseudo-instructions expand as R64 says. -/
def Obligations.AssemblerFollowsItsFormulas : Prop :=
  (∀ cp : Nat, assembleLine (.bbChar cp) =
    if cp < 2 ^ 32 then some [BitVec.ofNat 64 (0x02 * 2 ^ 56 + cp)] else none) ∧
  (∀ w h m : Nat, assembleLine (.exStart w h m) =
    if w < 2 ^ 16 ∧ h < 2 ^ 16 ∧ m < 4 then some [BitVec.ofNat 64 (0x10 * 2 ^ 56 + m * 2 ^ 32 + w * 2 ^ 16 + h)]
    else none) ∧
  (∀ r g b : Nat, assembleLine (.exPix r g b) =
    if r < 256 ∧ g < 256 ∧ b < 256 then some [BitVec.ofNat 64 (0x11 * 2 ^ 56 + r * 2 ^ 16 + g * 2 ^ 8 + b)]
    else none) ∧
  (∀ v : Nat, assembleLine (.word v) = if v < 2 ^ 64 then some [BitVec.ofNat 64 v] else none) ∧
  (∀ text : List Nat, (∀ c ∈ text, c < 2 ^ 32) →
    assembleLine (.bbStr text) = some (text.map fun c => encode (.bbChar (BitVec.ofNat 32 c))) ∧
    assembleLine (.bbMsg text) =
      some ([encode .bbStart] ++ text.map (fun c => encode (.bbChar (BitVec.ofNat 32 c))) ++ [encode .bbEnd])) ∧
  (∀ (gr : Grid) (m : Nat), gr.width < 2 ^ 16 → gr.height < 2 ^ 16 → m < 4 →
    assembleLine (.exGrid gr.width gr.height m (gr.pixels.map fun p => (p.r.toNat, p.g.toNat, p.b.toNat))) =
      some (encode (.exStart (BitVec.ofNat 2 m) (BitVec.ofNat 16 gr.width) (BitVec.ofNat 16 gr.height)) ::
        gr.pixels.map fun p => encode (.exPix p.r p.g p.b)))

/-- Sanity: words written out from the formats of R55 to R58 decode to the commands they stand for. -/
def Obligations.WordsOfEveryFormatDecode : Prop :=
  decode 0x0000000000000000#64 = .ok .nop ∧
  decode 0x0100000000000000#64 = .ok .bbStart ∧
  decode 0x0200000000000048#64 = .ok (.bbChar 0x48#32) ∧
  decode 0x0300000000000000#64 = .ok .bbEnd ∧
  decode 0x1000000100030002#64 = .ok (.exStart 1#2 3#16 2#16) ∧
  decode 0x1100000000123456#64 = .ok (.exPix 0x12#8 0x34#8 0x56#8) ∧
  decode 0x2000000000000000#64 = .ok .errClr

/-! ### The step -/

/-- A step on a word that decodes is exec of what it decodes to, on the state with the word consumed. -/
def Obligations.StepRunsTheDecodedCommand : Prop :=
  ∀ (s : State) (w : CmdWord) (rest : List HostInput) (i : Instr),
    s.hostIn = .cmd w :: rest → decode w = .ok i → step s = exec i { s with hostIn := rest }

/-- R90: an illegal word sets ERR_ILL and nothing else, and the host continues with the next word. -/
def Obligations.IllegalWordSetsOnlyErrIll : Prop :=
  ∀ (s : State) (w : CmdWord) (rest : List HostInput) (e : IllegalWord),
    s.hostIn = .cmd w :: rest → decode w = .error e →
    step s = .next { s with hostIn := rest, err := { s.err with ill := true } }

/-- R100: a RESET event sets every field to its reset value, all eight STAT registers read 0, and what was emitted stays
emitted; power-on gives the same values. -/
def Obligations.ResetSetsEveryField : Prop :=
  (∀ (s : State) (rest : List HostInput), s.hostIn = .reset :: rest →
    ∃ t, step s = .next t ∧
      t.bb = { st := .idle, out := [], count := 0#32 } ∧
      t.ex = { st := .idle, w := 0#16, h := 0#16, pixcnt := 0#32, out := [], count := 0#32, mark := false,
               sr := 0#8, nb := 0 } ∧
      t.err = { ill := false, seqb := false, seqx := false } ∧
      t.portLog = s.portLog ∧ ∀ idx, stat t idx = 0#32) ∧
  State.reset.bb = { st := .idle, out := [], count := 0#32 } ∧
  State.reset.ex = { st := .idle, w := 0#16, h := 0#16, pixcnt := 0#32, out := [], count := 0#32, mark := false,
                     sr := 0#8, nb := 0 } ∧
  State.reset.err = { ill := false, seqb := false, seqx := false } ∧
  ∀ idx, stat State.reset idx = 0#32

/-- R45: a STAT read gives the register's value and changes no field, so every register reads the same afterwards. -/
def Obligations.StatReadChangesNoField : Prop :=
  ∀ (s : State) (idx : StatIndex) (rest : List HostInput), s.hostIn = .readStat idx :: rest →
    ∃ t, step s = .next t ∧ t.bb = s.bb ∧ t.ex = s.ex ∧ t.err = s.err ∧ t.hostIn = rest ∧
      t.portLog = s.portLog ++ [.stat idx (stat s idx)] ∧ ∀ j, stat t j = stat s j

/-- THE MODEL'S CHOICE (assumption log 3): where the host presents nothing, a step changes nothing. -/
def Obligations.StepWaitsForTheHost : Prop :=
  ∀ s : State, s.hostIn = [] → step s = .next s

/-- R94, R10: no step traps or refuses. That a step with no pending input answers next is THE MODEL'S CHOICE (assumption log 3),
as are the list of pending inputs, of which a step takes the first where there is one, and the record of what the ports have
carried, which only grows (logs 1 and 2); that nothing faults, and what RESET and a STAT read leave of the two lists, is read
from the spec or chosen as logs 5 and 6 say. -/
def Obligations.EveryStepAnswersNext : Prop :=
  ∀ s : State, ∃ t, step s = .next t ∧ t.hostIn = s.hostIn.tail ∧ s.portLog <+: t.portLog

/-! ### The builder -/

/-- R71: BB_START opens an empty session in every state, changes nothing else, and two in a row equal one. -/
def Obligations.BbStartOpensAnEmptySession : Prop :=
  (∀ s : State, exec .bbStart s = .next { s with bb := { st := .active, out := [], count := 0#32 } }) ∧
  (∀ s t u : State, exec .bbStart s = .next t → exec .bbStart t = .next u → u = t) ∧
  encode .bbStart = 0x0100000000000000#64

/-- R72: BB_CHAR in every BB_ST value, with its checks in order; in an open session with room, the eight bits go out MSB
first. -/
def Obligations.BbCharFollowsItsRule : Prop :=
  (∀ (cp : CodePoint) (s : State), s.bb.st = .active → cp.toNat ≤ 255 → s.bb.count.toNat + 8 ≤ 2 ^ 32 - 1 →
    exec (.bbChar cp) s = .next { s with
      bb := { st := .active
              out := s.bb.out ++ [cp.getLsbD 7, cp.getLsbD 6, cp.getLsbD 5, cp.getLsbD 4,
                                  cp.getLsbD 3, cp.getLsbD 2, cp.getLsbD 1, cp.getLsbD 0]
              count := BitVec.ofNat 32 (s.bb.count.toNat + 8) }
      portLog := s.portLog ++ [.bit (cp.getLsbD 7), .bit (cp.getLsbD 6), .bit (cp.getLsbD 5), .bit (cp.getLsbD 4),
                               .bit (cp.getLsbD 3), .bit (cp.getLsbD 2), .bit (cp.getLsbD 1), .bit (cp.getLsbD 0)] }) ∧
  (∀ (cp : CodePoint) (s : State), s.bb.st = .active → 255 < cp.toNat →
    exec (.bbChar cp) s = .next { s with bb := { s.bb with st := .encErr } }) ∧
  (∀ (cp : CodePoint) (s : State), s.bb.st = .active → cp.toNat ≤ 255 → 2 ^ 32 - 1 < s.bb.count.toNat + 8 →
    exec (.bbChar cp) s = .next { s with bb := { s.bb with st := .ovfErr } }) ∧
  (∀ (cp : CodePoint) (s : State), s.bb.st = .idle ∨ s.bb.st = .done →
    exec (.bbChar cp) s = .next { s with err := { s.err with seqb := true } }) ∧
  (∀ (cp : CodePoint) (s : State), s.bb.st = .encErr ∨ s.bb.st = .ovfErr → exec (.bbChar cp) s = .next s) ∧
  (∀ cp : CodePoint, (encode (.bbChar cp)).toNat = 0x02 * 2 ^ 56 + cp.toNat)

/-- R73: BB_END in every BB_ST value; in an open session with room, the marker goes out and the session is DONE. -/
def Obligations.BbEndFollowsItsRule : Prop :=
  (∀ s : State, s.bb.st = .active → s.bb.count.toNat + 16 ≤ 2 ^ 32 - 1 →
    exec .bbEnd s = .next { s with
      bb := { st := .done
              out := s.bb.out ++ (List.replicate 15 true ++ [false])
              count := BitVec.ofNat 32 (s.bb.count.toNat + 16) }
      portLog := s.portLog ++ (List.replicate 15 (.bit true) ++ [.bit false]) }) ∧
  (∀ s : State, s.bb.st = .active → 2 ^ 32 - 1 < s.bb.count.toNat + 16 →
    exec .bbEnd s = .next { s with bb := { s.bb with st := .ovfErr } }) ∧
  (∀ s : State, s.bb.st = .idle ∨ s.bb.st = .done →
    exec .bbEnd s = .next { s with err := { s.err with seqb := true } }) ∧
  (∀ s : State, s.bb.st = .encErr ∨ s.bb.st = .ovfErr → exec .bbEnd s = .next s) ∧
  encode .bbEnd = 0x0300000000000000#64

/-- R91: a data command to a unit without an open session sets that unit's flag only; to a unit whose session failed it is
ignored. -/
def Obligations.StrayDataCommandsOnlySetTheUnitsFlag : Prop :=
  (∀ (s : State) (i : Instr), (∃ cp, i = .bbChar cp) ∨ i = .bbEnd → s.bb.st = .idle ∨ s.bb.st = .done →
    exec i s = .next { s with err := { s.err with seqb := true } }) ∧
  (∀ (s : State) (i : Instr), (∃ cp, i = .bbChar cp) ∨ i = .bbEnd → s.bb.st = .encErr ∨ s.bb.st = .ovfErr →
    exec i s = .next s) ∧
  (∀ (s : State) (i : Instr), (∃ r g b, i = .exPix r g b) → s.ex.st = .idle ∨ s.ex.st = .done →
    exec i s = .next { s with err := { s.err with seqx := true } }) ∧
  (∀ (s : State) (i : Instr), (∃ r g b, i = .exPix r g b) → s.ex.st = .fmtErr → exec i s = .next s)

/-- R93: within BB_CHAR the code point is checked before the counter, and before both the unit's state. -/
def Obligations.EncodingErrorComesBeforeOverflow : Prop :=
  ∀ (cp : CodePoint) (s : State), 255 < cp.toNat → 2 ^ 32 - 1 < s.bb.count.toNat + 8 →
    exec (.bbChar cp) s = .next (match s.bb.st with
      | .active => { s with bb := { s.bb with st := .encErr } }
      | .idle => { s with err := { s.err with seqb := true } }
      | .done => { s with err := { s.err with seqb := true } }
      | .encErr => s
      | .ovfErr => s)

/-! ### The extractor -/

/-- R79: EX_START is accepted in every state: it latches W and H and empties the session, rejecting a grid that is not RGB or
has a zero dimension. -/
def Obligations.ExStartOpensOrRejectsTheGrid : Prop :=
  (∀ (mode : ImageMode) (w h : Dim) (s : State), mode.toNat = 0 → 0 < w.toNat → 0 < h.toNat →
    exec (.exStart mode w h) s = .next { s with
      ex := { st := .active, w := w, h := h, pixcnt := 0#32, out := [], count := 0#32, mark := false,
              sr := 0#8, nb := 0 } }) ∧
  (∀ (mode : ImageMode) (w h : Dim) (s : State), mode.toNat ≠ 0 ∨ w.toNat = 0 ∨ h.toNat = 0 →
    exec (.exStart mode w h) s = .next { s with
      ex := { st := .fmtErr, w := w, h := h, pixcnt := 0#32, out := [], count := 0#32, mark := false,
              sr := 0#8, nb := 0 } }) ∧
  (∀ (mode : ImageMode) (w h : Dim), (encode (.exStart mode w h)).toNat =
    0x10 * 2 ^ 56 + mode.toNat * 2 ^ 32 + w.toNat * 2 ^ 16 + h.toNat)

/-- R80: EX_PIX on a reachable extractor. In an open session before the marker the pixel's three LSBs join the pending bits in
the order R, G, B; eight of them make a byte, which is emitted and counted, or is the marker; the pixel is counted; and the
grid's last pixel ends the session and drops what is pending. After the marker the pixel is only counted. -/
def Obligations.ExPixConsumesTheNextPixel : Prop :=
  (∀ (r g b : Byte) (s : State), ExtractorInv s.ex → s.ex.st = .active →
    ∃ t, exec (.exPix r g b) s = .next t ∧
      t.bb = s.bb ∧ t.err = s.err ∧ t.hostIn = s.hostIn ∧ t.ex.w = s.ex.w ∧ t.ex.h = s.ex.h ∧
      t.ex.pixcnt.toNat = s.ex.pixcnt.toNat + 1 ∧ t.ex.sr.toNat < 2 ^ t.ex.nb.val ∧
      (s.ex.pixcnt.toNat + 1 = s.ex.w.toNat * s.ex.h.toNat → t.ex.st = .done ∧ t.ex.sr = 0#8 ∧ t.ex.nb = 0) ∧
      (s.ex.pixcnt.toNat + 1 ≠ s.ex.w.toNat * s.ex.h.toNat → t.ex.st = .active) ∧
      let l := pendingBits s.ex ++ [lsb r, lsb g, lsb b]
      (s.ex.mark = true → t.ex.mark = true ∧ t.ex.out = s.ex.out ∧ t.ex.count = s.ex.count ∧
        t.ex.sr = s.ex.sr ∧ t.ex.nb = s.ex.nb ∧ t.portLog = s.portLog) ∧
      (s.ex.mark = false → l.length < 8 →
        t.ex.mark = false ∧ t.ex.out = s.ex.out ∧ t.ex.count = s.ex.count ∧ t.portLog = s.portLog ∧
        (t.ex.st = .active → pendingBits t.ex = l)) ∧
      (s.ex.mark = false → 8 ≤ l.length → byteOf (l.take 8) = 0xFE#8 →
        t.ex.mark = true ∧ t.ex.out = s.ex.out ∧ t.ex.count = s.ex.count ∧ t.portLog = s.portLog ∧
        t.ex.sr = 0#8 ∧ t.ex.nb = 0) ∧
      (s.ex.mark = false → 8 ≤ l.length → byteOf (l.take 8) ≠ 0xFE#8 →
        t.ex.mark = false ∧ t.ex.out = s.ex.out ++ [byteOf (l.take 8)] ∧
        t.ex.count.toNat = s.ex.count.toNat + 1 ∧ t.portLog = s.portLog ++ [.char (byteOf (l.take 8))] ∧
        (t.ex.st = .active → pendingBits t.ex = l.drop 8))) ∧
  (∀ (r g b : Byte) (s : State), s.ex.st = .idle ∨ s.ex.st = .done →
    exec (.exPix r g b) s = .next { s with err := { s.err with seqx := true } }) ∧
  (∀ (r g b : Byte) (s : State), s.ex.st = .fmtErr → exec (.exPix r g b) s = .next s) ∧
  (∀ r g b : Byte, (encode (.exPix r g b)).toNat =
    0x11 * 2 ^ 56 + r.toNat * 2 ^ 16 + g.toNat * 2 ^ 8 + b.toNat)

/-- R80, corner cases: a group completes in the B channel when EX_NB was 5, in G when it was 6, in R when it was 7; what
EX_SR holds makes its upper bits, and the channels after it begin the next group. -/
def Obligations.GroupCompletesInTheChannelThatNbGives : Prop :=
  ∀ (r g b : Byte) (s : State), ExtractorInv s.ex → s.ex.st = .active → s.ex.mark = false →
    s.ex.pixcnt.toNat + 1 ≠ s.ex.w.toNat * s.ex.h.toNat →
    ∃ t, exec (.exPix r g b) s = .next t ∧
      (∀ c : Byte, s.ex.nb.val = 5 →
        c.toNat = 8 * s.ex.sr.toNat + 4 * (r.toNat % 2) + 2 * (g.toNat % 2) + b.toNat % 2 → c ≠ 0xFE#8 →
        t.ex.out = s.ex.out ++ [c] ∧ t.ex.nb.val = 0 ∧ t.ex.sr.toNat = 0) ∧
      (∀ c : Byte, s.ex.nb.val = 6 → c.toNat = 4 * s.ex.sr.toNat + 2 * (r.toNat % 2) + g.toNat % 2 → c ≠ 0xFE#8 →
        t.ex.out = s.ex.out ++ [c] ∧ t.ex.nb.val = 1 ∧ t.ex.sr.toNat = b.toNat % 2) ∧
      (∀ c : Byte, s.ex.nb.val = 7 → c.toNat = 2 * s.ex.sr.toNat + r.toNat % 2 → c ≠ 0xFE#8 →
        t.ex.out = s.ex.out ++ [c] ∧ t.ex.nb.val = 2 ∧ t.ex.sr.toNat = 2 * (g.toNat % 2) + b.toNat % 2)

/-- R69: the bit of a channel is v & 1, the inverse of the Embedder's write, and bits [7:1] of a channel never affect EX. -/
def Obligations.OnlyTheLsbOfAChannelMatters : Prop :=
  (∀ v : Byte, v &&& 1#8 = if lsb v then 1#8 else 0#8) ∧
  (∀ (v : Byte) (b : Bit), lsb (writeLsb v b) = b ∧ ∀ k, 0 < k → (writeLsb v b).getLsbD k = v.getLsbD k) ∧
  (∀ (r g b r' g' b' : Byte) (s : State), lsb r = lsb r' → lsb g = lsb g' → lsb b = lsb b' →
    exec (.exPix r g b) s = exec (.exPix r' g' b') s)

/-- R43: one EX_PIX emits 0 or 1 byte, in any state at all, and emits it on CHAR_OUT only. -/
def Obligations.PixelEmitsAtMostOneByte : Prop :=
  ∀ (r g b : Byte) (s : State), ∃ t, exec (.exPix r g b) s = .next t ∧
    ((t.ex.out = s.ex.out ∧ t.portLog = s.portLog) ∨
     ∃ c, c ≠ 0xFE#8 ∧ t.ex.out = s.ex.out ++ [c] ∧ t.portLog = s.portLog ++ [.char c])

/-! ### Global control -/

/-- R84: NOP changes nothing in any state; a word with opcode 0x00 and a reserved bit set is not NOP but illegal. -/
def Obligations.NopChangesNothing : Prop :=
  (∀ s : State, exec .nop s = .next s) ∧
  encode .nop = 0x0000000000000000#64 ∧
  (∀ (w : CmdWord) (s : State), w.toNat / 2 ^ 56 = 0x00 → w ≠ 0x0000000000000000#64 →
    decode w = .error .reservedBitSet ∧ performWord w s = .next { s with err.ill := true })

/-- R85: ERR_CLR clears the three flags in any state and nothing else; with a reserved bit set the word is illegal and clears
nothing. -/
def Obligations.ErrClrClearsTheFlags : Prop :=
  (∀ s : State, exec .errClr s = .next { s with err := { ill := false, seqb := false, seqx := false } }) ∧
  encode .errClr = 0x2000000000000000#64 ∧
  (∀ (w : CmdWord) (s : State), w.toNat / 2 ^ 56 = 0x20 → w ≠ 0x2000000000000000#64 →
    performWord w s = .next { s with err.ill := true })

/-! ### Status registers -/

/-- R30: each field of STATUS at its bits, for every value of the unit states and flags. -/
def Obligations.StatusFieldsStandAtTheirBits : Prop :=
  (∀ s : State, (stat s 0).toNat =
    (match s.bb.st with | .idle => 0 | .active => 1 | .done => 2 | .encErr => 3 | .ovfErr => 4)
    + 2 ^ 4 * (match s.ex.st with | .idle => 0 | .active => 1 | .done => 2 | .fmtErr => 3)
    + 2 ^ 6 * s.ex.mark.toNat + 2 ^ 8 * s.err.ill.toNat + 2 ^ 9 * s.err.seqb.toNat + 2 ^ 10 * s.err.seqx.toNat) ∧
  stat State.reset 0 = 0x00000000#32

/-- R29, R31, R32: registers 1, 2 and 3 read the counters, register 4 reads EX_W * 65536 + EX_H, 5, 6 and 7 read 0. -/
def Obligations.StatRegistersReadTheState : Prop :=
  ∀ s : State, stat s 1 = s.bb.count ∧ stat s 2 = s.ex.count ∧ stat s 3 = s.ex.pixcnt ∧
    (stat s 4).toNat = s.ex.w.toNat * 65536 + s.ex.h.toNat ∧
    stat s 5 = 0#32 ∧ stat s 6 = 0#32 ∧ stat s 7 = 0#32 ∧
    (∀ k, k = 3 ∨ k = 7 ∨ 11 ≤ k → (stat s 0).getLsbD k = false) ∧
    ∀ idx, stat State.reset idx = 0#32

/-! ### Invariants -/

/-- R12, R100: the reset state meets the invariants. -/
def Obligations.ResetMeetsTheInvariants : Prop :=
  BuilderInv State.reset.bb ∧ ExtractorInv State.reset.ex ∧ RecordInv State.reset

/-- R18, R19: every step keeps what BB_COUNT and BB_OUT are in each BB_ST value. -/
def Obligations.StepKeepsTheBuilderInvariant : Prop :=
  ∀ s t : State, BuilderInv s.bb → step s = .next t → BuilderInv t.bb

/-- R20, R22 to R25: every step keeps what the extractor's fields are in each EX_ST value. -/
def Obligations.StepKeepsTheExtractorInvariant : Prop :=
  ∀ s t : State, ExtractorInv s.ex → step s = .next t → ExtractorInv t.ex

/-- R18, R23: every step keeps BB_OUT and EX_OUT the last of what BIT_OUT and CHAR_OUT have carried. -/
def Obligations.StepKeepsTheEmissionRecords : Prop :=
  ∀ s t : State, RecordInv s → step s = .next t → RecordInv t

/-- R22, R23: on a reachable extractor the counters stay below 2^32, and the next pixel lies inside the grid. -/
def Obligations.ExtractorCountersStayInRange : Prop :=
  ∀ e : Extractor, ExtractorInv e →
    e.pixcnt.toNat ≤ 4294836225 ∧ e.count.toNat ≤ 1610563584 ∧ 8 * e.count.toNat ≤ 3 * (e.w.toNat * e.h.toNat) ∧
    (e.st = .active → e.pixcnt.toNat % e.w.toNat < e.w.toNat ∧ e.pixcnt.toNat / e.w.toNat < e.h.toNat)

/-- R102, R27: a builder session has a result exactly in DONE, ENC_ERR and OVF_ERR, and a bitstream result of a reachable
state is build of some message; an extractor session has one exactly when EX_MARK = 1, or EX_ST is DONE or FMT_ERR. -/
def Obligations.ResultsAreThoseOfTheSessionStates : Prop :=
  (∀ s : State, bbResult s = none ↔ s.bb.st = .idle ∨ s.bb.st = .active) ∧
  (∀ (s : State) (bits : List Bit), BuilderInv s.bb → bbResult s = some (.bitstream bits) →
    s.bb.st = .done ∧ s.bb.count.toNat = bits.length ∧ ∃ m, build m = .ok bits) ∧
  (∀ s : State, ExtractorInv s.ex → (exResult s = none ↔
    (s.ex.st = .idle ∨ s.ex.st = .active) ∧ s.ex.mark = false))

/-! ### Rules of the whole machine -/

/-- R26: a flag once set stays set until ERR_CLR or a reset, whatever else the host presents; and the command that sets one
writes no other state. -/
def Obligations.ErrorFlagsAreSticky : Prop :=
  (∀ s t : State, step s = .next t → s.hostIn.head? ≠ some .reset →
    s.hostIn.head? ≠ some (.cmd (encode .errClr)) →
    (s.err.ill = true → t.err.ill = true) ∧ (s.err.seqb = true → t.err.seqb = true) ∧
    (s.err.seqx = true → t.err.seqx = true)) ∧
  (∀ s t : State, step s = .next t →
    (s.err.ill = false ∧ t.err.ill = true) ∨ (s.err.seqb = false ∧ t.err.seqb = true) ∨
      (s.err.seqx = false ∧ t.err.seqx = true) →
    t.bb = s.bb ∧ t.ex = s.ex ∧ t.portLog = s.portLog ∧
      (t.err = { s.err with ill := true } ∨ t.err = { s.err with seqb := true } ∨ t.err = { s.err with seqx := true }))

/-- R95, R17, R20: a unit that is not in an open session leaves its state only through its START command or a reset: nothing
else the host presents changes any field of it. -/
def Obligations.ClosedUnitsChangeOnlyByStartOrReset : Prop :=
  (∀ s t : State, step s = .next t → s.bb.st ≠ .active → s.hostIn.head? ≠ some .reset →
    s.hostIn.head? ≠ some (.cmd (encode .bbStart)) → t.bb = s.bb) ∧
  (∀ s t : State, step s = .next t → s.ex.st ≠ .active → s.hostIn.head? ≠ some .reset →
    (∀ m w h, s.hostIn.head? ≠ some (.cmd (encode (.exStart m w h)))) → t.ex = s.ex)

/-- R21: EX_START writes the dimensions, also those of a rejected grid, and nothing else writes them until the next EX_START or
reset. -/
def Obligations.DimensionsAreImmutableInASession : Prop :=
  (∀ (m : ImageMode) (w h : Dim) (s : State), ∃ t, exec (.exStart m w h) s = .next t ∧ t.ex.w = w ∧ t.ex.h = h) ∧
  (∀ s t : State, step s = .next t → s.hostIn.head? ≠ some .reset →
    (∀ m w h, s.hostIn.head? ≠ some (.cmd (encode (.exStart m w h)))) → t.ex.w = s.ex.w ∧ t.ex.h = s.ex.h)

/-- R24: from the marker on, EX_MARK stays 1 and EX_OUT no longer changes in the session. -/
def Obligations.MarkerMakesTheOutputFinal : Prop :=
  ∀ s t : State, s.ex.mark = true → step s = .next t → s.hostIn.head? ≠ some .reset →
    (∀ m w h, s.hostIn.head? ≠ some (.cmd (encode (.exStart m w h)))) →
    t.ex.mark = true ∧ t.ex.out = s.ex.out ∧ t.ex.count = s.ex.count

/-- R28: the frame of each unit's commands: a BB command leaves EX, ERR_ILL and ERR_SEQX unchanged and does not read EX; an EX
command leaves BB, ERR_ILL and ERR_SEQB unchanged and does not read BB. -/
def Obligations.CommandsTouchOnlyTheirOwnUnit : Prop :=
  (∀ (i : Instr) (s : State), isBb i = true → ∃ t, exec i s = .next t ∧
    t.ex = s.ex ∧ t.err.ill = s.err.ill ∧ t.err.seqx = s.err.seqx ∧ t.hostIn = s.hostIn ∧
    ∀ e : Extractor, exec i { s with ex := e } = .next { t with ex := e }) ∧
  (∀ (i : Instr) (s : State), isEx i = true → ∃ t, exec i s = .next t ∧
    t.bb = s.bb ∧ t.err.ill = s.err.ill ∧ t.err.seqb = s.err.seqb ∧ t.hostIn = s.hostIn ∧
    ∀ b : Builder, exec i { s with bb := b } = .next { t with bb := b })

/-- R28: interleaving BB and EX commands in any order gives each unit the final state it has when its commands are issued
alone. -/
def Obligations.InterleavedUnitsAreIndependent : Prop :=
  ∀ (cs : List Instr) (s : State), (∀ i ∈ cs, isBb i = true ∨ isEx i = true) →
    ∃ t u v : State,
      Sys2Proof.core.run cs.length (presentWords (cs.map encode) s) = .next t ∧
      Sys2Proof.core.run (cs.filter isBb).length (presentWords ((cs.filter isBb).map encode) s) = .next u ∧
      Sys2Proof.core.run (cs.filter isEx).length (presentWords ((cs.filter isEx).map encode) s) = .next v ∧
      t.bb = u.bb ∧ t.err.seqb = u.err.seqb ∧ t.ex = v.ex ∧ t.err.seqx = v.err.seqx ∧
      t.err.ill = s.err.ill ∧ t.hostIn = s.hostIn

/-- R10, with assumption log 1 and 2: a command reads and writes the state of R12 and nothing else: what the host has pending
and what the ports have carried do not change its effect, and it appends the same emissions whatever they are. -/
def Obligations.CommandsDoNotReadTheHostsSide : Prop :=
  ∀ (i : Instr) (s : State), ∃ (t : State) (emitted : List PortEvent),
    exec i s = .next t ∧ t.portLog = s.portLog ++ emitted ∧ t.hostIn = s.hostIn ∧
    ∀ (hin : List HostInput) (log : List PortEvent),
      exec i { s with hostIn := hin, portLog := log } = .next { t with hostIn := hin, portLog := log ++ emitted }

/-! ### Sessions and the functions they compute -/

/-- R74: a builder session, from any state and with any EX commands interleaved, computes build. -/
def Obligations.BuilderSessionComputesBuild : Prop :=
  ∀ (m : List CodePoint) (cs : List Instr) (s : State),
    (∀ i ∈ cs, isBb i = true ∨ isEx i = true) →
    cs.filter isBb = [.bbStart] ++ m.map Instr.bbChar ++ [.bbEnd] →
    ∃ t, Sys2Proof.core.run cs.length (presentWords (cs.map encode) s) = .next t ∧
      t.err.seqb = s.err.seqb ∧
      ((∀ c ∈ m, c.toNat ≤ 255) → 8 * m.length + 16 ≤ 2 ^ 32 - 1 →
        t.bb.st = .done ∧ build (m.map BitVec.toNat) = .ok t.bb.out ∧ t.bb.count.toNat = 8 * m.length + 16) ∧
      (∀ j, (∃ h : j < m.length, 255 < m[j].toNat) → (∀ c ∈ m.take j, c.toNat ≤ 255) → 8 * j ≤ 2 ^ 32 - 1 →
        t.bb.st = .encErr ∧ t.bb.out = messageBits ((m.take j).map BitVec.toNat) ∧ t.bb.count.toNat = 8 * j ∧
        build (m.map BitVec.toNat) = .error .encoding) ∧
      ((∀ c ∈ m, c.toNat ≤ 255) → 2 ^ 32 - 1 < 8 * m.length + 16 → t.bb.st = .ovfErr) ∧
      (∀ j, (∃ h : j < m.length, 255 < m[j].toNat) → (∀ c ∈ m.take j, c.toNat ≤ 255) → 2 ^ 32 - 1 < 8 * j →
        t.bb.st = .ovfErr)

/-- R81: an extractor session, from any state and with any BB commands interleaved, computes extract; stated after the first k
pixels for every k, so that it says what EX_OUT is on the way, that it is final once EX_MARK = 1, and what it is at the end. -/
def Obligations.ExtractorSessionComputesExtract : Prop :=
  ∀ (gr : Grid) (k : Nat) (cs : List Instr) (s : State),
    1 ≤ gr.width → gr.width ≤ 65535 → 1 ≤ gr.height → gr.height ≤ 65535 → k ≤ gr.width * gr.height →
    (∀ i ∈ cs, isBb i = true ∨ isEx i = true) →
    cs.filter isEx = .exStart 0#2 (BitVec.ofNat 16 gr.width) (BitVec.ofNat 16 gr.height) ::
      (gr.pixels.take k).map (fun p => .exPix p.r p.g p.b) →
    ∃ t, Sys2Proof.core.run cs.length (presentWords (cs.map encode) s) = .next t ∧
      t.err.seqx = s.err.seqx ∧ t.ex.pixcnt.toNat = k ∧
      t.ex.out = decodeBytes ((groups8 gr.lsbs).take (3 * k / 8)) ∧ t.ex.count.toNat = t.ex.out.length ∧
      (t.ex.mark = true ↔ 0xFE#8 ∈ (groups8 gr.lsbs).take (3 * k / 8)) ∧
      (t.ex.mark = true → t.ex.out = extract gr) ∧
      (k < gr.width * gr.height → t.ex.st = .active) ∧
      (k = gr.width * gr.height → t.ex.st = .done ∧ t.ex.out = extract gr ∧
        t.ex.count.toNat = (extract gr).length ∧ (t.ex.mark = true ↔ 0xFE#8 ∈ groups8 gr.lsbs))

/-- R104: whatever pixels the host sends, the session computes the extraction of the grid whose traversal-order stream is the
stream actually sent, and no error is raised. -/
def Obligations.AnyPixelStreamIsTheExtractionOfItsOwnGrid : Prop :=
  ∀ (w h : Nat) (ps : List Pixel) (s : State),
    1 ≤ w → w ≤ 65535 → 1 ≤ h → h ≤ 65535 → ps.length = w * h →
    let cs := Instr.exStart 0#2 (BitVec.ofNat 16 w) (BitVec.ofNat 16 h) :: ps.map fun p => .exPix p.r p.g p.b
    ∃ (gr : Grid) (t : State), gr.width = w ∧ gr.height = h ∧ gr.pixels = ps ∧
      Sys2Proof.core.run cs.length (presentWords (cs.map encode) s) = .next t ∧
      t.ex.st = .done ∧ t.ex.out = extract gr ∧ t.err = s.err ∧ t.bb = s.bb

/-- R40: every bitstream of build is 8 bits a character and the 16 marker bits, and the marker's second byte stands in group
len(M) + 1. -/
def Obligations.BitstreamIsAlignedToGroups : Prop :=
  ∀ (m : List Nat) (bits : List Bit), build m = .ok bits →
    bits.length = 8 * m.length + 16 ∧ bits.drop (8 * m.length) = List.replicate 15 true ++ [false] ∧
    (groups8 bits)[m.length]? = some 0xFF#8 ∧ (groups8 bits)[m.length + 1]? = some 0xFE#8 ∧
    (groups8 bits).take m.length = m.map (BitVec.ofNat 8)

/-- R70: build fails exactly on a code point above 255; otherwise it gives each character's bits MSB first, then the marker. -/
def Obligations.BuildFailsExactlyAbove255 : Prop :=
  (∀ m : List Nat, build m = .error .encoding ↔ ∃ c ∈ m, 255 < c) ∧
  (∀ m : List Nat, (∀ c ∈ m, c ≤ 255) → ∃ bits, build m = .ok bits ∧ bits.length = 8 * m.length + 16 ∧
    (∀ i k, i < m.length → k < 8 → bits[8 * i + k]? = some ((m.getD i 0).testBit (7 - k))) ∧
    (∀ k, k < 16 → bits[8 * m.length + k]? = some (decide (k ≠ 15)))) ∧
  build [] = .ok (List.replicate 15 true ++ [false])

/-- R66: the pair (x, y, ch) stands at index 3*(y*W + x) + c of the traversal, and the pair at index t is the one of t's
quotients and remainders; there are 3*W*H of them; and pixel (x, y) is the pixel y*W + x of the stream. -/
def Obligations.TraversalIndexIsThePlace : Prop :=
  ∀ w h : Nat, (traversal w h).length = 3 * (w * h) ∧
    (∀ x y ch, x < w → y < h → (traversal w h)[3 * (y * w + x) + ch.index]? = some ⟨x, y, ch⟩) ∧
    (∀ t, t < 3 * (w * h) → (traversal w h)[t]? = some ⟨t / 3 % w, t / 3 / w, Channel.ofIndex (t % 3)⟩) ∧
    (∀ (gr : Grid) (x y : Nat), gr.width = w → gr.height = h → x < w → y < h →
      gr.pixels[y * w + x]? = some (gr.pixel x y))

/-- R67: the k-th pixel of a grid's stream is the pixel at (k mod W, k div W), and the stream's LSBs, R, G and B of each pixel,
are the grid's LSBs in traversal order. -/
def Obligations.PixelStreamIsTheTraversal : Prop :=
  ∀ gr : Grid, gr.pixels.length = gr.width * gr.height ∧
    (∀ k, k < gr.width * gr.height → gr.pixels[k]? = some (gr.pixel (k % gr.width) (k / gr.width))) ∧
    streamLsbs gr.pixels = gr.lsbs

/-- R83: the round trip as the rules give it: the message and one 0xFF, or the message up to its first 254. The Embedder is
outside BSX: embed is THE MODEL'S READING (assumption log 10, DEDUCED) of the non-normative harness of 95_test_vectors.md L1.6,
so this statement says of the source's Embedder only what that harness shares with it. -/
def Obligations.RoundTripGivesTheMessageAndFF : Prop :=
  ∀ (gr : Grid) (m : List Nat), (∀ c ∈ m, c ≤ 255) → 8 * m.length + 16 ≤ 3 * gr.width * gr.height →
    ∃ bits gr', build m = .ok bits ∧ embed gr bits = some gr' ∧
      (254 ∉ m → extract gr' = m.map (BitVec.ofNat 8) ++ [0xFF#8]) ∧
      (∀ j, m[j]? = some 254 → 254 ∉ m.take j → extract gr' = (m.take j).map (BitVec.ofNat 8))
end

