-- ==== Sys2Proof/Laws/Decode.lean ====
section
/-! SUPPORT. Fields of an encoded word, and what a word that decodes holds. -/

namespace Sys2Proof

/-- The opcode field of an encoded command is its opcode (R54). -/
@[simp] theorem fieldOpc_encode (i : Instr) : fieldOpc (encode i) = i.opcode := by
  apply BitVec.eq_of_getLsbD_eq
  intro k hk
  rw [fieldOpc, encode, BitVec.getLsbD_extractLsb', BitVec.getLsbD_append]
  simp [hk]

/-- Below the opcode stands the payload. -/
theorem encode_low (i : Instr) (k n : Nat) (h : k + n ≤ 56) :
    (encode i).extractLsb' k n = i.payload.extractLsb' k n := by
  rw [encode, BitVec.extractLsb'_append_eq_of_add_le h]

/-! ### Fields of an encoded command -/

theorem extract_high {w v : Nat} (x : BitVec w) (y : BitVec v) (k n : Nat) (h : v ≤ k) : (x ++ y).extractLsb' k n = x.extractLsb' (k - v) n :=  BitVec.extractLsb'_append_eq_of_le h
theorem extract_low {w v : Nat} (x : BitVec w) (y : BitVec v) (k n : Nat) (h : k + n ≤ v) : (x ++ y).extractLsb' k n = y.extractLsb' k n :=  BitVec.extractLsb'_append_eq_of_add_le h
@[simp] theorem fieldCp_encode (cp : CodePoint) : fieldCp (encode (.bbChar cp)) = cp := by
  rw [fieldCp, encode_low _ _ _ (by decide), Instr.payload, extract_low _ _ _ _ (by decide)]; simp
@[simp] theorem fieldRsvC_encode (cp : CodePoint) : fieldRsvC (encode (.bbChar cp)) = 0 := by
  rw [fieldRsvC, encode_low _ _ _ (by decide), Instr.payload, extract_high _ _ _ _ (by decide)]; rfl
@[simp] theorem fieldRsvS_encode (m : ImageMode) (w h : Dim) : fieldRsvS (encode (.exStart m w h)) = 0 := by
  rw [fieldRsvS, encode_low _ _ _ (by decide), Instr.payload, extract_high _ _ _ _ (by decide), extract_high _ _ _ _ (by decide),
    extract_high _ _ _ _ (by decide)]; rfl
@[simp] theorem fieldMode_encode (m : ImageMode) (w h : Dim) : fieldMode (encode (.exStart m w h)) = m := by
  rw [fieldMode, encode_low _ _ _ (by decide), Instr.payload, extract_high _ _ _ _ (by decide), extract_high _ _ _ _ (by decide),
    extract_low _ _ _ _ (by decide)]; simp
@[simp] theorem fieldW_encode (m : ImageMode) (w h : Dim) : fieldW (encode (.exStart m w h)) = w := by
  rw [fieldW, encode_low _ _ _ (by decide), Instr.payload, extract_high _ _ _ _ (by decide), extract_low _ _ _ _ (by decide)]; simp
@[simp] theorem fieldH_encode (m : ImageMode) (w h : Dim) : fieldH (encode (.exStart m w h)) = h := by
  rw [fieldH, encode_low _ _ _ (by decide), Instr.payload, extract_low _ _ _ _ (by decide)]; simp
@[simp] theorem fieldRsvP_encode (r g b : Byte) : fieldRsvP (encode (.exPix r g b)) = 0 := by
  rw [fieldRsvP, encode_low _ _ _ (by decide), Instr.payload, extract_high _ _ _ _ (by decide), extract_high _ _ _ _ (by decide),
    extract_high _ _ _ _ (by decide)]; rfl
@[simp] theorem fieldR_encode (r g b : Byte) : fieldR (encode (.exPix r g b)) = r := by
  rw [fieldR, encode_low _ _ _ (by decide), Instr.payload, extract_high _ _ _ _ (by decide), extract_high _ _ _ _ (by decide),
    extract_low _ _ _ _ (by decide)]; simp
@[simp] theorem fieldG_encode (r g b : Byte) : fieldG (encode (.exPix r g b)) = g := by
  rw [fieldG, encode_low _ _ _ (by decide), Instr.payload, extract_high _ _ _ _ (by decide), extract_low _ _ _ _ (by decide)]; simp
@[simp] theorem fieldB_encode (r g b : Byte) : fieldB (encode (.exPix r g b)) = b := by
  rw [fieldB, encode_low _ _ _ (by decide), Instr.payload, extract_low _ _ _ _ (by decide)]; simp

/-! ### What a word that decodes holds -/

theorem checkRsv_ok {f : Format} {w : CmdWord} {i j : Instr} (h : checkRsv f w i = .ok j) : rsvClear f w = true ∧ j = i := by
  unfold checkRsv at h
  split at h
  · exact ⟨‹_›, by simpa using h.symm⟩
  · cases h

theorem decode_cases {w : CmdWord} {i : Instr} (h : decode w = .ok i) :
    (fieldOpc w = 0x00#8 ∧ fieldRsvN w = 0 ∧ i = .nop) ∨
    (fieldOpc w = 0x01#8 ∧ fieldRsvN w = 0 ∧ i = .bbStart) ∨
    (fieldOpc w = 0x02#8 ∧ fieldRsvC w = 0 ∧ i = .bbChar (fieldCp w)) ∨
    (fieldOpc w = 0x03#8 ∧ fieldRsvN w = 0 ∧ i = .bbEnd) ∨
    (fieldOpc w = 0x10#8 ∧ fieldRsvS w = 0 ∧ i = .exStart (fieldMode w) (fieldW w) (fieldH w)) ∨
    (fieldOpc w = 0x11#8 ∧ fieldRsvP w = 0 ∧ i = .exPix (fieldR w) (fieldG w) (fieldB w)) ∨
    (fieldOpc w = 0x20#8 ∧ fieldRsvN w = 0 ∧ i = .errClr) := by
  unfold decode at h
  by_cases h0 : fieldOpc w = 0x00#8
  · obtain ⟨hr, rfl⟩ := checkRsv_ok (by simpa [h0] using h)
    simp_all [rsvClear]
  by_cases h1 : fieldOpc w = 0x01#8
  · obtain ⟨hr, rfl⟩ := checkRsv_ok (by simpa [h1] using h)
    simp_all [rsvClear]
  by_cases h2 : fieldOpc w = 0x02#8
  · obtain ⟨hr, rfl⟩ := checkRsv_ok (by simpa [h2] using h)
    simp_all [rsvClear]
  by_cases h3 : fieldOpc w = 0x03#8
  · obtain ⟨hr, rfl⟩ := checkRsv_ok (by simpa [h3] using h)
    simp_all [rsvClear]
  by_cases h4 : fieldOpc w = 0x10#8
  · obtain ⟨hr, rfl⟩ := checkRsv_ok (by simpa [h4] using h)
    simp_all [rsvClear]
  by_cases h5 : fieldOpc w = 0x11#8
  · obtain ⟨hr, rfl⟩ := checkRsv_ok (by simpa [h5] using h)
    simp_all [rsvClear]
  by_cases h6 : fieldOpc w = 0x20#8
  · obtain ⟨hr, rfl⟩ := checkRsv_ok (by simpa [h6] using h)
    simp_all [rsvClear]
  simp [h0, h1, h2, h3, h4, h5, h6] at h

/-! ### A word put together from its parts -/

theorem extract_split (w : CmdWord) (k a b : Nat) : w.extractLsb' k (a+b) = w.extractLsb' (k+b) a ++ w.extractLsb' k b := by
  apply BitVec.eq_of_getLsbD_eq
  intro j hj
  rw [BitVec.getLsbD_append]
  by_cases h : j < b
  · simp [h, show j < a + b by omega]
  · simp [h, hj, show j - b < a by omega, show k + b + (j - b) = k + j by omega]

/-- A word is its opcode and what stands below it. -/
theorem word_split (w : CmdWord) : w = (fieldOpc w ++ w.extractLsb' 0 56 : BitVec (8+56)) := by
  have := extract_split w 0 8 56
  rw [fieldOpc, ← this]; simp

theorem append_inj {a b} {x x' : BitVec a} {y y' : BitVec b} : x ++ y = x' ++ y' ↔ x = x' ∧ y = y' := by
  constructor
  · intro h
    constructor
    · have := congrArg (BitVec.extractLsb' b a) h
      simpa [BitVec.extractLsb'_append_eq_of_le] using this
    · have := congrArg (BitVec.extractLsb' 0 b) h
      simpa [BitVec.extractLsb'_append_eq_of_add_le] using this
  · rintro ⟨rfl, rfl⟩; rfl

/-! ### Masks -/

/-- Masking a word with ones above bit b compares its bits from b up. -/
theorem mask_high_iff (a b : Nat) (w : BitVec (a+b)) (p : BitVec a) :
    w &&& (BitVec.allOnes a ++ 0#b) = p ++ 0#b ↔ w.extractLsb' b a = p := by
  have hw : w = w.extractLsb' b a ++ w.extractLsb' 0 b := by
    apply BitVec.eq_of_getLsbD_eq
    intro j hj
    rw [BitVec.getLsbD_append]
    by_cases h : j < b
    · simp [h]
    · simp [h, show j - b < a by omega, show b + (j - b) = j by omega]
  generalize hx : w.extractLsb' b a = x at *
  generalize hy : w.extractLsb' 0 b = y at *
  subst hw
  rw [BitVec.and_append]
  simp [append_inj]

theorem mask_all_iff (w p : CmdWord) : w &&& 0xFFFFFFFFFFFFFFFF#64 = p ↔ w = p := by
  rw [show (0xFFFFFFFFFFFFFFFF#64) = BitVec.allOnes 64 from rfl, BitVec.and_allOnes]

/-- The bits from b up are an opcode and reserved bits that are 0. -/
theorem opcode_rsv_iff (w : CmdWord) (o : BitVec 8) (a b : Nat) (h : 56 = a + b) :
    (w.extractLsb' b (8+a) = o ++ 0#a) ↔ fieldOpc w = o ∧ w.extractLsb' b a = 0 := by
  rw [extract_split w b 8 a, append_inj, fieldOpc, Nat.add_comm b a, ← h]; rfl

end Sys2Proof
end

