-- ==== Sys2Proof/Laws/Reference.lean ====
section
/-! SUPPORT. What the reference functions do on longer sequences: groups of eight, decoding up to the marker byte, the bits of
a message, the bits after the last whole group. -/

namespace Sys2Proof.Machine

theorem bits8_length (c : Nat) : (bits8 c).length = 8 := rfl

theorem groups8_short {l : List Bit} (h : l.length < 8) : groups8 l = [] := by
  unfold groups8
  split
  · simp at h; omega
  · rfl

theorem groups8_cons8 (g rest : List Bit) (h : g.length = 8) : groups8 (g ++ rest) = byteOf g :: groups8 rest := by
  match g, h with
  | [b0, b1, b2, b3, b4, b5, b6, b7], _ => rfl

theorem groups8_append (l m : List Bit) (h : l.length % 8 = 0) : groups8 (l ++ m) = groups8 l ++ groups8 m := by
  induction hn : l.length / 8 generalizing l with
  | zero =>
    have : l = [] := List.length_eq_zero_iff.mp (by omega)
    subst this; rfl
  | succ n ih =>
    have hl : l = l.take 8 ++ l.drop 8 := (List.take_append_drop 8 l).symm
    have h8 : (l.take 8).length = 8 := by simp; omega
    have hi := ih (l.drop 8) (by simp; omega) (by simp; omega)
    rw [hl, List.append_assoc, groups8_cons8 _ _ h8, groups8_cons8 _ _ h8, hi]; rfl

theorem groups8_length (l : List Bit) : (groups8 l).length = l.length / 8 := by
  induction hn : l.length / 8 generalizing l with
  | zero => rw [groups8_short (by omega)]; rfl
  | succ n ih =>
    have hl : l = l.take 8 ++ l.drop 8 := (List.take_append_drop 8 l).symm
    have h8 : (l.take 8).length = 8 := by simp; omega
    have hi := ih (l.drop 8) (by simp; omega)
    rw [hl, groups8_cons8 _ _ h8]; simp [hi]

theorem byteOf_bits8 {c : Nat} (h : c ≤ 255) : byteOf (bits8 c) = BitVec.ofNat 8 c := by
  rw [byteOf]; congr 1
  simp only [bitsValue, bits8, List.foldl_cons, List.foldl_nil, Nat.toNat_testBit]
  omega

theorem groups8_messageBits {m : List Nat} (h : ∀ c ∈ m, c ≤ 255) (rest : List Bit) :
    groups8 (messageBits m ++ rest) = m.map (BitVec.ofNat 8) ++ groups8 rest := by
  induction m with
  | nil => rfl
  | cons c m ih =>
    have hm : messageBits (c :: m) ++ rest = bits8 c ++ (messageBits m ++ rest) := by simp [messageBits]
    rw [hm, groups8_cons8 _ _ (bits8_length c), byteOf_bits8 (h c (by simp)), ih (fun d hd => h d (by simp [hd]))]; rfl

theorem messageBits_length (m : List Nat) : (messageBits m).length = 8 * m.length := by
  induction m with
  | nil => rfl
  | cons c m ih =>
    have : messageBits (c :: m) = bits8 c ++ messageBits m := rfl
    rw [this, List.length_append, ih, bits8_length, List.length_cons]; omega

theorem decodeBytes_append (a b : List Byte) :
    decodeBytes (a ++ b) = if Config.markByte ∈ a then decodeBytes a else a ++ decodeBytes b := by
  induction a with
  | nil => simp
  | cons x a ih =>
    by_cases hx : x = Config.markByte
    · simp [decodeBytes, hx]
    · have hx' : Config.markByte ≠ x := fun h => hx h.symm
      simp [decodeBytes, hx, hx', ih]
      split <;> simp

theorem decodeBytes_of_not_mem {a : List Byte} (h : Config.markByte ∉ a) : decodeBytes a = a := by
  have := decodeBytes_append a []
  simpa [h, decodeBytes] using this

theorem mark_not_mem_decodeBytes (a : List Byte) : Config.markByte ∉ decodeBytes a := by
  induction a with
  | nil => simp [decodeBytes]
  | cons x a ih =>
    by_cases hx : x = Config.markByte
    · simp [decodeBytes, hx]
    · simp [decodeBytes, hx, ih, Ne.symm hx]

theorem decodeBytes_length_le (a : List Byte) : (decodeBytes a).length ≤ a.length := by
  induction a with
  | nil => simp [decodeBytes]
  | cons x a ih =>
    simp only [decodeBytes]
    split <;> simp [ih]

/-- The bits of the last, incomplete group. -/
def tail8 (l : List Bit) : List Bit := l.drop (8 * (l.length / 8))

theorem groups8_snoc (l : List Bit) (b : Bit) :
    groups8 (l ++ [b]) = if l.length % 8 = 7 then groups8 l ++ [byteOf (tail8 l ++ [b])] else groups8 l := by
  have hl : l = l.take (8 * (l.length / 8)) ++ tail8 l := (List.take_append_drop _ l).symm
  have h8 : (l.take (8 * (l.length / 8))).length % 8 = 0 := by simp; omega
  have ht : (tail8 l).length = l.length % 8 := by simp [tail8]; omega
  have hg : groups8 l = groups8 (l.take (8 * (l.length / 8))) := by
    conv_lhs => rw [hl]
    rw [groups8_append _ _ h8, groups8_short (l := tail8 l) (by omega), List.append_nil]
  have hsplit : groups8 (l ++ [b]) = groups8 (l.take (8 * (l.length / 8))) ++ groups8 (tail8 l ++ [b]) := by
    conv_lhs => rw [hl, List.append_assoc]
    exact groups8_append _ _ h8
  rw [hsplit, ← hg]
  split
  · rename_i h7
    have : groups8 (tail8 l ++ [b]) = [byteOf (tail8 l ++ [b])] := by
      have := groups8_cons8 (tail8 l ++ [b]) [] (by simp [ht, h7])
      simpa [groups8_short] using this
    rw [this]
  · rw [groups8_short (l := tail8 l ++ [b]) (by simp [ht]; omega)]; simp

theorem tail8_snoc (l : List Bit) (b : Bit) :
    tail8 (l ++ [b]) = if l.length % 8 = 7 then [] else tail8 l ++ [b] := by
  have hl : l = l.take (8 * (l.length / 8)) ++ tail8 l := (List.take_append_drop _ l).symm
  unfold tail8
  split
  · rename_i h; apply List.drop_eq_nil_of_le; simp; omega
  · rename_i h
    rw [show (l ++ [b]).length / 8 = l.length / 8 by simp; omega, List.drop_append_of_le_length (by omega)]

theorem bitsValue_append (a : List Bit) (b : Bit) : bitsValue (a ++ [b]) = 2 * bitsValue a + b.toNat := by
  simp [bitsValue]

theorem bitsValue_lt (a : List Bit) : bitsValue a < 2 ^ a.length := by
  induction a using List.reverseRecOn with
  | nil => simp [bitsValue]
  | append_singleton a b ih =>
    rw [bitsValue_append, List.length_append, List.length_singleton, pow_succ]
    have := Bool.toNat_le b
    omega

end Sys2Proof.Machine
end

