-- ==== Sys2Proof/Laws/State.lean ====
section
/-! SUPPORT. One lemma per shared update and per part of the state (bb, ex, err, hostIn, portLog), true by rfl, so that no
later proof unfolds a record update. -/

namespace Sys2Proof.Machine

@[simp] theorem emitBits_bb (l : List Bit) (s : State) : (emitBits l s).bb = { s.bb with out := s.bb.out ++ l } := rfl
@[simp] theorem emitBits_ex (l : List Bit) (s : State) : (emitBits l s).ex = s.ex := rfl
@[simp] theorem emitBits_err (l : List Bit) (s : State) : (emitBits l s).err = s.err := rfl
@[simp] theorem emitBits_hostIn (l : List Bit) (s : State) : (emitBits l s).hostIn = s.hostIn := rfl
@[simp] theorem emitBits_portLog (l : List Bit) (s : State) : (emitBits l s).portLog = s.portLog ++ l.map PortEvent.bit := rfl

@[simp] theorem emitChar_bb (c : Byte) (s : State) : (emitChar c s).bb = s.bb := rfl
@[simp] theorem emitChar_ex (c : Byte) (s : State) : (emitChar c s).ex = { s.ex with out := s.ex.out ++ [c] } := rfl
@[simp] theorem emitChar_err (c : Byte) (s : State) : (emitChar c s).err = s.err := rfl
@[simp] theorem emitChar_hostIn (c : Byte) (s : State) : (emitChar c s).hostIn = s.hostIn := rfl
@[simp] theorem emitChar_portLog (c : Byte) (s : State) : (emitChar c s).portLog = s.portLog ++ [PortEvent.char c] := rfl

@[simp] theorem addBbCount_bb (n : Nat) (s : State) : (addBbCount n s).bb = { s.bb with count := counterAdd s.bb.count n } := rfl
@[simp] theorem addBbCount_ex (n : Nat) (s : State) : (addBbCount n s).ex = s.ex := rfl
@[simp] theorem addBbCount_err (n : Nat) (s : State) : (addBbCount n s).err = s.err := rfl
@[simp] theorem addBbCount_hostIn (n : Nat) (s : State) : (addBbCount n s).hostIn = s.hostIn := rfl
@[simp] theorem addBbCount_portLog (n : Nat) (s : State) : (addBbCount n s).portLog = s.portLog := rfl

@[simp] theorem addExCount_bb (s : State) : (addExCount s).bb = s.bb := rfl
@[simp] theorem addExCount_ex (s : State) : (addExCount s).ex = { s.ex with count := counterAdd s.ex.count 1 } := rfl
@[simp] theorem addExCount_err (s : State) : (addExCount s).err = s.err := rfl
@[simp] theorem addExCount_hostIn (s : State) : (addExCount s).hostIn = s.hostIn := rfl
@[simp] theorem addExCount_portLog (s : State) : (addExCount s).portLog = s.portLog := rfl

@[simp] theorem recordError_encoding_bb (s : State) : (recordError .encoding s).bb = { s.bb with st := .encErr } := rfl
@[simp] theorem recordError_encoding_ex (s : State) : (recordError .encoding s).ex = s.ex := rfl
@[simp] theorem recordError_encoding_err (s : State) : (recordError .encoding s).err = s.err := rfl
@[simp] theorem recordError_encoding_hostIn (s : State) : (recordError .encoding s).hostIn = s.hostIn := rfl
@[simp] theorem recordError_encoding_portLog (s : State) : (recordError .encoding s).portLog = s.portLog := rfl

@[simp] theorem recordError_overflow_bb (s : State) : (recordError .overflow s).bb = { s.bb with st := .ovfErr } := rfl
@[simp] theorem recordError_overflow_ex (s : State) : (recordError .overflow s).ex = s.ex := rfl
@[simp] theorem recordError_overflow_err (s : State) : (recordError .overflow s).err = s.err := rfl
@[simp] theorem recordError_overflow_hostIn (s : State) : (recordError .overflow s).hostIn = s.hostIn := rfl
@[simp] theorem recordError_overflow_portLog (s : State) : (recordError .overflow s).portLog = s.portLog := rfl

@[simp] theorem recordError_format_bb (s : State) : (recordError .format s).bb = s.bb := rfl
@[simp] theorem recordError_format_ex (s : State) : (recordError .format s).ex = { s.ex with st := .fmtErr } := rfl
@[simp] theorem recordError_format_err (s : State) : (recordError .format s).err = s.err := rfl
@[simp] theorem recordError_format_hostIn (s : State) : (recordError .format s).hostIn = s.hostIn := rfl
@[simp] theorem recordError_format_portLog (s : State) : (recordError .format s).portLog = s.portLog := rfl

@[simp] theorem recordError_illegal_bb (s : State) : (recordError .illegal s).bb = s.bb := rfl
@[simp] theorem recordError_illegal_ex (s : State) : (recordError .illegal s).ex = s.ex := rfl
@[simp] theorem recordError_illegal_err (s : State) : (recordError .illegal s).err = { s.err with ill := true } := rfl
@[simp] theorem recordError_illegal_hostIn (s : State) : (recordError .illegal s).hostIn = s.hostIn := rfl
@[simp] theorem recordError_illegal_portLog (s : State) : (recordError .illegal s).portLog = s.portLog := rfl

@[simp] theorem recordError_sequenceB_bb (s : State) : (recordError .sequenceB s).bb = s.bb := rfl
@[simp] theorem recordError_sequenceB_ex (s : State) : (recordError .sequenceB s).ex = s.ex := rfl
@[simp] theorem recordError_sequenceB_err (s : State) : (recordError .sequenceB s).err = { s.err with seqb := true } := rfl
@[simp] theorem recordError_sequenceB_hostIn (s : State) : (recordError .sequenceB s).hostIn = s.hostIn := rfl
@[simp] theorem recordError_sequenceB_portLog (s : State) : (recordError .sequenceB s).portLog = s.portLog := rfl

@[simp] theorem recordError_sequenceX_bb (s : State) : (recordError .sequenceX s).bb = s.bb := rfl
@[simp] theorem recordError_sequenceX_ex (s : State) : (recordError .sequenceX s).ex = s.ex := rfl
@[simp] theorem recordError_sequenceX_err (s : State) : (recordError .sequenceX s).err = { s.err with seqx := true } := rfl
@[simp] theorem recordError_sequenceX_hostIn (s : State) : (recordError .sequenceX s).hostIn = s.hostIn := rfl
@[simp] theorem recordError_sequenceX_portLog (s : State) : (recordError .sequenceX s).portLog = s.portLog := rfl

@[simp] theorem clearErrors_bb (s : State) : (clearErrors s).bb = s.bb := rfl
@[simp] theorem clearErrors_ex (s : State) : (clearErrors s).ex = s.ex := rfl
@[simp] theorem clearErrors_err (s : State) : (clearErrors s).err = ErrFlags.reset := rfl
@[simp] theorem clearErrors_hostIn (s : State) : (clearErrors s).hostIn = s.hostIn := rfl
@[simp] theorem clearErrors_portLog (s : State) : (clearErrors s).portLog = s.portLog := rfl

@[simp] theorem countPixel_bb (s : State) : (countPixel s).bb = s.bb := rfl
@[simp] theorem countPixel_ex (s : State) : (countPixel s).ex = { s.ex with pixcnt := counterAdd s.ex.pixcnt 1 } := rfl
@[simp] theorem countPixel_err (s : State) : (countPixel s).err = s.err := rfl
@[simp] theorem countPixel_hostIn (s : State) : (countPixel s).hostIn = s.hostIn := rfl
@[simp] theorem countPixel_portLog (s : State) : (countPixel s).portLog = s.portLog := rfl

@[simp] theorem openGrid_bb (w h : Dim) (s : State) : (openGrid w h s).bb = s.bb := rfl
@[simp] theorem openGrid_ex (w h : Dim) (s : State) : (openGrid w h s).ex = { Extractor.reset with st := .active, w := w, h := h } := rfl
@[simp] theorem openGrid_err (w h : Dim) (s : State) : (openGrid w h s).err = s.err := rfl
@[simp] theorem openGrid_hostIn (w h : Dim) (s : State) : (openGrid w h s).hostIn = s.hostIn := rfl
@[simp] theorem openGrid_portLog (w h : Dim) (s : State) : (openGrid w h s).portLog = s.portLog := rfl

@[simp] theorem takeReset_bb (s : State) : (takeReset s).bb = Builder.reset := rfl
@[simp] theorem takeReset_ex (s : State) : (takeReset s).ex = Extractor.reset := rfl
@[simp] theorem takeReset_err (s : State) : (takeReset s).err = ErrFlags.reset := rfl
@[simp] theorem takeReset_hostIn (s : State) : (takeReset s).hostIn = s.hostIn := rfl
@[simp] theorem takeReset_portLog (s : State) : (takeReset s).portLog = s.portLog := rfl

@[simp] theorem readStat_bb (idx : StatIndex) (s : State) : (readStat idx s).bb = s.bb := rfl
@[simp] theorem readStat_ex (idx : StatIndex) (s : State) : (readStat idx s).ex = s.ex := rfl
@[simp] theorem readStat_err (idx : StatIndex) (s : State) : (readStat idx s).err = s.err := rfl
@[simp] theorem readStat_hostIn (idx : StatIndex) (s : State) : (readStat idx s).hostIn = s.hostIn := rfl
@[simp] theorem readStat_portLog (idx : StatIndex) (s : State) : (readStat idx s).portLog = s.portLog ++ [PortEvent.stat idx (stat s idx)] := rfl

@[simp] theorem presentWord_bb (w : CmdWord) (s : State) : (presentWord w s).bb = s.bb := rfl
@[simp] theorem presentWord_ex (w : CmdWord) (s : State) : (presentWord w s).ex = s.ex := rfl
@[simp] theorem presentWord_err (w : CmdWord) (s : State) : (presentWord w s).err = s.err := rfl
@[simp] theorem presentWord_hostIn (w : CmdWord) (s : State) : (presentWord w s).hostIn = .cmd w :: s.hostIn := rfl
@[simp] theorem presentWord_portLog (w : CmdWord) (s : State) : (presentWord w s).portLog = s.portLog := rfl

@[simp] theorem presentWords_bb (ws : List CmdWord) (s : State) : (presentWords ws s).bb = s.bb := rfl
@[simp] theorem presentWords_ex (ws : List CmdWord) (s : State) : (presentWords ws s).ex = s.ex := rfl
@[simp] theorem presentWords_err (ws : List CmdWord) (s : State) : (presentWords ws s).err = s.err := rfl
@[simp] theorem presentWords_hostIn (ws : List CmdWord) (s : State) : (presentWords ws s).hostIn = ws.map HostInput.cmd ++ s.hostIn := rfl
@[simp] theorem presentWords_portLog (ws : List CmdWord) (s : State) : (presentWords ws s).portLog = s.portLog := rfl

/-- Two states with the same five parts are the same. -/
theorem State.eq_of_parts {s t : State} (hbb : s.bb = t.bb) (hex : s.ex = t.ex) (herr : s.err = t.err)
    (hin : s.hostIn = t.hostIn) (hlog : s.portLog = t.portLog) : s = t := by
  cases s; cases t; simp_all

end Sys2Proof.Machine
end

