-- ==== Sys2Proof/Laws/Ops.lean ====
section
/-! SUPPORT. One lemma per shared operation, saying all it does; the collection of a bit is stated against the reference
functions. -/

namespace Sys2Proof.Machine

theorem shiftIn_toNat (sr v : Byte) : (shiftIn sr v).toNat = (2 * sr.toNat + (lsb v).toNat) % 256 := by
  have hb : (lsb v).toNat = v.toNat % 2 := by
    rw [lsb, BitVec.getLsbD, Nat.toNat_testBit]; simp
  rw [hb, shiftIn, show (0xFF#8) = BitVec.allOnes 8 from rfl, BitVec.and_allOnes, BitVec.toNat_or, BitVec.toNat_and,
    BitVec.toNat_shiftLeft, show (1#8).toNat = 1 from rfl, Nat.and_one_is_mod, Nat.shiftLeft_eq,
    show sr.toNat * 2 ^ 1 % 2 ^ 8 = (sr.toNat % 128) <<< 1 by rw [Nat.shiftLeft_eq]; omega,
    ← Nat.shiftLeft_add_eq_or_of_lt (by omega), Nat.shiftLeft_eq]
  omega

/-- The extractor's fields in an open session, as functions of the LSBs collected so far (R25, R75, R80). -/
def Collected (l : List Bit) (e : Extractor) : Prop :=
  e.out = extractBits l ∧ e.count.toNat = e.out.length ∧ (e.mark = true ↔ Config.markByte ∈ groups8 l) ∧
  (e.mark = true → e.sr = 0#8 ∧ e.nb = 0) ∧
  (e.mark = false → e.nb.val = l.length % 8 ∧ e.sr.toNat = bitsValue (tail8 l))

theorem counterAdd_toNat {c : Counter} {n : Nat} (h : c.toNat + n < 2 ^ 32) : (counterAdd c n).toNat = c.toNat + n := by
  simp [counterAdd]; omega

theorem Fin8_add_one {n : Fin 8} (h : n.val + 1 ≠ 8) : (n + 1).val = n.val + 1 := by
  rw [Fin.val_add]; simp; omega

/-- One channel value adds its LSB to what has been collected. -/
theorem collectBit_collected {l : List Bit} {s : State} (v : Byte) (h : Collected l s.ex) (hlen : l.length < 2 ^ 34) :
    Collected (l ++ [lsb v]) (collectBit v s).ex := by
  obtain ⟨ho, hc, hm, hz, hp⟩ := h
  have htail : (tail8 l).length = l.length % 8 := by simp [tail8]; omega
  have hlt := bitsValue_lt (tail8 l)
  have hext : extractBits l = decodeBytes (groups8 l) := rfl
  by_cases hmark : s.ex.mark = true
  · have hmem := hm.mp hmark
    have hc' : collectBit v s = s := by simp [collectBit, hmark]
    rw [hc']
    have hg := groups8_snoc l (lsb v)
    refine ⟨?_, hc, ?_, hz, by simp [hmark]⟩
    · rw [ho, extractBits, extractBits, hg]
      split
      · rw [decodeBytes_append, if_pos hmem]
      · rfl
    · rw [hg]; split <;> simp [hmark, hmem]
  · have hmark' : s.ex.mark = false := by simpa using hmark
    have hnm : Config.markByte ∉ groups8 l := fun hh => hmark (hm.mpr hh)
    obtain ⟨hnb, hsr⟩ := hp hmark'
    have hout : s.ex.out = groups8 l := by rw [ho, extractBits, decodeBytes_of_not_mem hnm]
    have hg := groups8_snoc l (lsb v)
    have ht := tail8_snoc l (lsb v)
    have hbv := bitsValue_append (tail8 l) (lsb v)
    have hbl := bitsValue_lt (tail8 l ++ [lsb v])
    by_cases h7 : l.length % 8 = 7
    · have hb : shiftIn s.ex.sr v = byteOf (tail8 l ++ [lsb v]) := by
        apply BitVec.eq_of_toNat_eq
        rw [shiftIn_toNat, hsr, ← hbv, byteOf]; simp
      rw [if_pos h7] at hg ht
      have hc1 : collectBit v s = completeGroup (shiftIn s.ex.sr v) s := by
        simp [collectBit, hmark', hnb, h7, Config.charBits]
      rw [hc1, hb]
      by_cases hmk : byteOf (tail8 l ++ [lsb v]) = Config.markByte
      · simp only [completeGroup, hmk, if_true]
        refine ⟨?_, ?_, ?_, ?_, ?_⟩
        · simp [extractBits, hg, hmk, decodeBytes_append, hnm, hout, decodeBytes]
        · exact hc
        · simp [hg, hmk]
        · simp
        · simp
      · simp only [completeGroup, hmk, if_false]
        have hlen' : (groups8 l).length < 2 ^ 31 := by rw [groups8_length]; omega
        refine ⟨?_, ?_, ?_, ?_, ?_⟩
        · simp [extractBits, hg, hmk, decodeBytes_append, hnm, hout, decodeBytes]
        · have : s.ex.count.toNat + 1 < 2 ^ 32 := by rw [hc, hout]; omega
          simp [counterAdd_toNat this, hc]
        · simp [hg, hnm, hmark', Ne.symm hmk]
        · simp
        · intro _
          refine ⟨by simp; omega, by simp [ht, bitsValue]⟩
    · rw [if_neg h7] at hg ht
      have hc1 : collectBit v s = { s with ex.sr := shiftIn s.ex.sr v, ex.nb := s.ex.nb + 1 } := by
        simp [collectBit, hmark', hnb, Config.charBits]; omega
      rw [hc1]
      refine ⟨by simp [extractBits, hg, ho], hc, by simp [hg, hm], by simp [hmark'], ?_⟩
      intro _
      refine ⟨?_, ?_⟩
      · show (s.ex.nb + 1).val = _
        rw [Fin8_add_one (by omega), hnb]; simp; omega
      · show (shiftIn s.ex.sr v).toNat = _
        rw [shiftIn_toNat, hsr, ht, ← hbv, Nat.mod_eq_of_lt]
        refine lt_of_lt_of_le hbl ?_
        rw [List.length_append, htail]
        calc 2 ^ (l.length % 8 + [lsb v].length) ≤ 2 ^ 8 := Nat.pow_le_pow_right (by omega) (by simp; omega)
          _ = 256 := rfl

end Sys2Proof.Machine
end

