-- ==== Sys2Proof/Laws/Extractor.lean ====
section
/-! SUPPORT. The extractor's collection of one bit, by cases, its frame, and its relation to the pending bits (spec R25, R80). -/

namespace Sys2Proof.Machine

/-- After the marker a channel value changes nothing (R80). -/
theorem collectBit_mark (v : Byte) (s : State) (h : s.ex.mark = true) : collectBit v s = s := by simp [collectBit, h]

/-- The eighth bit completes a group. -/
theorem collectBit_eighth (v : Byte) (s : State) (h : s.ex.mark = false) (h7 : s.ex.nb.val = 7) :
   collectBit v s = completeGroup (shiftIn s.ex.sr v) s := by simp [collectBit, h, h7, Config.charBits]

/-- Any other bit joins the shift register. -/
theorem collectBit_pending (v : Byte) (s : State) (h : s.ex.mark = false) (h7 : s.ex.nb.val ≠ 7) :
   collectBit v s = { s with ex.sr := shiftIn s.ex.sr v, ex.nb := s.ex.nb + 1 } := by
  simp [collectBit, h, Config.charBits]; omega

/-- What collecting a bit leaves unchanged. -/
theorem collectBit_frame (v : Byte) (s : State) :
    (collectBit v s).bb = s.bb ∧ (collectBit v s).hostIn = s.hostIn ∧ (collectBit v s).err = s.err ∧ (collectBit v s).ex.st = s.ex.st ∧ (collectBit v s).ex.w = s.ex.w ∧
    (collectBit v s).ex.h = s.ex.h ∧ (collectBit v s).ex.pixcnt = s.ex.pixcnt := by
  unfold collectBit completeGroup; split
  · simp
  · split
    · split <;> simp
    · simp

/-- What collecting a bit emits: nothing, or one byte, which is not the marker, at the eighth bit. -/
theorem collectBit_emit (v : Byte) (s : State) :
    ((collectBit v s).ex.out = s.ex.out ∧ (collectBit v s).portLog = s.portLog ∧
      ((collectBit v s).ex.nb.val = s.ex.nb.val + 1 ∨ (collectBit v s).ex.mark = true)) ∨
    (∃ c, c ≠ 0xFE#8 ∧ s.ex.nb.val = 7 ∧ (collectBit v s).ex.nb.val = 0 ∧ (collectBit v s).ex.out = s.ex.out ++ [c] ∧ (collectBit v s).portLog = s.portLog ++ [.char c]) := by
  by_cases hm : s.ex.mark = true
  · left; rw [collectBit_mark _ _ hm]; simp [hm]
  · have hm' : s.ex.mark = false := by simpa using hm
    by_cases h7 : s.ex.nb.val = 7
    · rw [collectBit_eighth _ _ hm' h7]
      by_cases hc : shiftIn s.ex.sr v = Config.markByte
      · left; simp [completeGroup, hc]
      · right; exact ⟨_, hc, h7, by simp [completeGroup], by simp [completeGroup, hc], by simp [completeGroup, hc]⟩
    · left; rw [collectBit_pending _ _ hm' h7]; refine ⟨rfl, rfl, Or.inl ?_⟩
      show (s.ex.nb + 1).val = _
      exact Fin8_add_one (by omega)

/-- EX_SR stays inside its EX_NB bits. -/
theorem collectBit_sr (v : Byte) (s : State) (h : s.ex.sr.toNat < 2 ^ s.ex.nb.val) :
    (collectBit v s).ex.sr.toNat < 2 ^ (collectBit v s).ex.nb.val := by
  by_cases hm : s.ex.mark = true
  · rw [collectBit_mark _ _ hm]; exact h
  · have hm' : s.ex.mark = false := by simpa using hm
    by_cases h7 : s.ex.nb.val = 7
    · rw [collectBit_eighth _ _ hm' h7]; simp [completeGroup]
    · rw [collectBit_pending _ _ hm' h7]
      show (shiftIn s.ex.sr v).toNat < 2 ^ (s.ex.nb + 1).val
      have := s.ex.nb.isLt
      rw [Fin8_add_one (by omega), shiftIn_toNat, pow_succ]
      have := Bool.toNat_le (lsb v)
      refine lt_of_le_of_lt (Nat.mod_le _ _) (by omega)

theorem pendingBits_length (e : Extractor) : (pendingBits e).length = e.nb.val := by simp [pendingBits]

theorem pendingBits_value (e : Extractor) (h : e.sr.toNat < 2 ^ e.nb.val) : bitsValue (pendingBits e) = e.sr.toNat := by
  have : ∀ n (x : Nat), x < 2 ^ n → bitsValue ((List.range n).map fun k => x.testBit (n - 1 - k)) = x := by
    intro n
    induction n with
    | zero => intro x hx; simp [bitsValue]; omega
    | succ n ih =>
      intro x hx
      rw [List.range_succ, List.map_append, List.map_singleton, bitsValue_append]
      have hi := ih (x/2) (by rw [pow_succ] at hx; omega)
      rw [show ((List.range n).map fun k => x.testBit (n + 1 - 1 - k)) = (List.range n).map fun k => (x/2).testBit (n - 1 - k) from ?_, hi]
      · rw [show n + 1 - 1 - n = 0 by omega, Nat.toNat_testBit]; omega
      · apply List.map_congr_left; intro k hk; simp at hk
        rw [← Nat.testBit_succ]; congr 1; omega
  exact this e.nb.val e.sr.toNat h

theorem bitsValue_inj {a b : List Bit} (hl : a.length = b.length) (h : bitsValue a = bitsValue b) : a = b := by
  induction a using List.reverseRecOn generalizing b with
  | nil => simp at hl; exact (List.length_eq_zero_iff.mp hl.symm).symm
  | append_singleton a x ih =>
    obtain ⟨b', y, rfl⟩ : ∃ b' y, b = b' ++ [y] := by
      rcases List.eq_nil_or_concat b with rfl | ⟨b', y, rfl⟩
      · simp at hl
      · exact ⟨b', y, by simp⟩
    rw [bitsValue_append, bitsValue_append] at h
    have := Bool.toNat_le x; have := Bool.toNat_le y
    have h1 : x.toNat = y.toNat := by omega
    have h2 : x = y := by revert h1; cases x <;> cases y <;> decide
    rw [h2, ih (by simpa using hl) (by omega)]

theorem pendingBits_eq {e : Extractor} {l : List Bit} (hn : e.nb.val = l.length) (hs : e.sr.toNat = bitsValue l) : pendingBits e = l := by
  apply bitsValue_inj (by rw [pendingBits_length, hn])
  rw [pendingBits_value e (by rw [hn, hs]; exact bitsValue_lt l), hs]

/-- One channel value in the terms of the pending bits. -/
theorem collectBit_pendingBits (v : Byte) (s : State) (hm : s.ex.mark = false) (hs : s.ex.sr.toNat < 2 ^ s.ex.nb.val) :
    let l := pendingBits s.ex ++ [lsb v]
    (l.length < 8 → collectBit v s = { s with ex.sr := shiftIn s.ex.sr v, ex.nb := s.ex.nb + 1 } ∧ pendingBits (collectBit v s).ex = l ∧
      (collectBit v s).ex.sr.toNat < 2 ^ (collectBit v s).ex.nb.val) ∧
    (l.length = 8 → collectBit v s = completeGroup (byteOf l) s) := by
  intro l
  have hv := pendingBits_value s.ex hs
  have hl : l.length = s.ex.nb.val + 1 := by simp [l, pendingBits_length]
  have hbv : bitsValue l = 2 * s.ex.sr.toNat + (lsb v).toNat := by simp [l, bitsValue_append, hv]
  have hlt := bitsValue_lt l
  constructor
  · intro h
    have e := collectBit_pending v s hm (by omega)
    have hsr : (shiftIn s.ex.sr v).toNat = bitsValue l := by
      rw [shiftIn_toNat, ← hbv, Nat.mod_eq_of_lt]
      calc _ < 2 ^ l.length := hlt
        _ ≤ 2 ^ 8 := Nat.pow_le_pow_right (by omega) (by omega)
    have hnb : (s.ex.nb + 1).val = l.length := by rw [Fin8_add_one (by omega), hl]
    refine ⟨e, ?_, ?_⟩
    · apply pendingBits_eq
      · rw [e]; exact hnb
      · rw [e]; exact hsr
    · rw [e]; show (shiftIn s.ex.sr v).toNat < 2 ^ (s.ex.nb + 1).val
      rw [hnb, hsr]; exact hlt
  · intro h
    rw [collectBit_eighth v s hm (by omega)]
    congr 1
    apply BitVec.eq_of_toNat_eq
    rw [shiftIn_toNat, ← hbv, byteOf]; simp

/-- Closing the grid, by cases. -/
theorem closeGrid_cases (s : State) :
   (s.ex.pixcnt.toNat = s.ex.w.toNat * s.ex.h.toNat ∧ closeGrid s = { s with ex.st := .done, ex.sr := 0#8, ex.nb := 0 }) ∨
   (s.ex.pixcnt.toNat ≠ s.ex.w.toNat * s.ex.h.toNat ∧ closeGrid s = s) := by
  by_cases h : s.ex.pixcnt.toNat = s.ex.w.toNat * s.ex.h.toNat
  · left; simp [closeGrid, gridConsumed, h]
  · right; simp [closeGrid, gridConsumed, h]

end Sys2Proof.Machine
end

