-- ==== Sys2Proof/Laws/PerInstr.lean ====
section
/-! SUPPORT. The per-instruction family: a command's word lies in its own row of the opcode table (spec/30_encoding.md R59). -/

namespace Sys2Proof.Laws.MatchesOwnRow

/-- The word of i matches a row of the table that carries i's mnemonic. -/
def Statement (i : Instr) : Prop :=
  ∃ r ∈ opcodeTable, r.mnemonic = i.mnemonic ∧ r.matchesWord (encode i) = true

theorem nop : Statement .nop :=
  ⟨⟨.NOP, .n, 0x0000000000000000#64, 0xFFFFFFFFFFFFFFFF#64⟩, by decide, rfl, by decide⟩

theorem bbStart : Statement .bbStart :=
  ⟨⟨.BB_START, .n, 0x0100000000000000#64, 0xFFFFFFFFFFFFFFFF#64⟩, by decide, rfl, by decide⟩

theorem bbChar (cp : CodePoint) : Statement (.bbChar cp) :=
  ⟨⟨.BB_CHAR, .c, 0x0200000000000000#64, 0xFFFFFFFF00000000#64⟩, by decide, rfl, by
    rw [OpcodeRow.matchesWord, beq_iff_eq]
    exact (mask_high_iff 32 32 _ 0x02000000#32).mpr
      ((opcode_rsv_iff _ 0x02#8 24 32 rfl).mpr ⟨fieldOpc_encode _, fieldRsvC_encode cp⟩)⟩

theorem bbEnd : Statement .bbEnd :=
  ⟨⟨.BB_END, .n, 0x0300000000000000#64, 0xFFFFFFFFFFFFFFFF#64⟩, by decide, rfl, by decide⟩

theorem exStart (mode : ImageMode) (w h : Dim) : Statement (.exStart mode w h) :=
  ⟨⟨.EX_START, .s, 0x1000000000000000#64, 0xFFFFFFFC00000000#64⟩, by decide, rfl, by
    rw [OpcodeRow.matchesWord, beq_iff_eq]
    exact (mask_high_iff 30 34 _ 0x04000000#30).mpr
      ((opcode_rsv_iff _ 0x10#8 22 34 rfl).mpr ⟨fieldOpc_encode _, fieldRsvS_encode mode w h⟩)⟩

theorem exPix (r g b : Byte) : Statement (.exPix r g b) :=
  ⟨⟨.EX_PIX, .p, 0x1100000000000000#64, 0xFFFFFFFFFF000000#64⟩, by decide, rfl, by
    rw [OpcodeRow.matchesWord, beq_iff_eq]
    exact (mask_high_iff 40 24 _ 0x1100000000#40).mpr
      ((opcode_rsv_iff _ 0x11#8 32 24 rfl).mpr ⟨fieldOpc_encode _, fieldRsvP_encode r g b⟩)⟩

theorem errClr : Statement .errClr :=
  ⟨⟨.ERR_CLR, .n, 0x2000000000000000#64, 0xFFFFFFFFFFFFFFFF#64⟩, by decide, rfl, by decide⟩

end Sys2Proof.Laws.MatchesOwnRow
end

