-- ==== Sys2Proof/Laws/Step.lean ====
section
/-! SUPPORT. The inversion lemma of a step, and one step of a run. -/

namespace Sys2Proof.Machine

/-- Everything a step can have done, by what the host presented. -/
theorem step_cases {s t : State} (h : step s = .next t) :
    (s.hostIn = [] ∧ t = s) ∨
    (∃ w rest i, s.hostIn = .cmd w :: rest ∧ decode w = .ok i ∧ exec i { s with hostIn := rest } = .next t) ∨
    (∃ w rest e, s.hostIn = .cmd w :: rest ∧ decode w = .error e ∧ t = { s with hostIn := rest, err := { s.err with ill := true } }) ∨
    (∃ rest, s.hostIn = .reset :: rest ∧ t = takeReset { s with hostIn := rest }) ∨
    (∃ idx rest, s.hostIn = .readStat idx :: rest ∧ t = readStat idx { s with hostIn := rest }) := by
  simp only [step, takeNextInput] at h
  split at h
  · left; rename_i hh; exact ⟨hh, by simpa using h.symm⟩
  · rename_i x rest hh
    cases x with
    | cmd w =>
      simp only [performInput, performWord] at h
      split at h
      · rename_i i hd; exact Or.inr (Or.inl ⟨w, rest, i, hh, hd, h⟩)
      · rename_i e hd; exact Or.inr (Or.inr (Or.inl ⟨w, rest, e, hh, hd, by simpa [takeIllegal, recordError] using h.symm⟩))
    | reset => exact Or.inr (Or.inr (Or.inr (Or.inl ⟨rest, hh, by simpa [performInput] using h.symm⟩)))
    | readStat idx => exact Or.inr (Or.inr (Or.inr (Or.inr ⟨idx, rest, hh, by simpa [performInput] using h.symm⟩)))

/-- One step of a run. -/
theorem run_of_step (M : Host.Core) {k : Nat} {s t : M.State} (h : M.step s = .next t) : M.run (k + 1) s = M.run k t := by
  show (match M.step s with
    | .next s' => M.run k s'
    | .fault r => .fault r
    | .refused r => .refused r) = _
  rw [h]

end Sys2Proof.Machine
end

