-- ==== Sys2Proof/Laws/Streams.lean ====
section
/-! SUPPORT. Grouping and taking from the front of a stream of bits or pixels, and what the ports have carried. -/

namespace Sys2Proof.Machine

theorem range_flatMap_getElem {α : Type} (f : Nat → List α) (n k : Nat) (hn : ∀ i, (f i).length = k) (i j : Nat) (hi : i < n) (hj : j < k) :
   ((List.range n).flatMap f)[i * k + j]? = (f i)[j]? := by
  induction n generalizing i with
  | zero => omega
  | succ n ih =>
    rw [List.range_succ, List.flatMap_append]
    have hl : ((List.range n).flatMap f).length = n * k := by simp [List.length_flatMap, hn]
    by_cases h : i < n
    · rw [List.getElem?_append_left, ih i h]
      rw [hl]; calc i * k + j < i * k + k := by omega
        _ = (i+1) * k := by ring
        _ ≤ n * k := Nat.mul_le_mul_right _ h
    · have : i = n := by omega
      subst this
      rw [List.getElem?_append_right (by omega), hl]; simp

theorem streamLsbs_length (ps : List Pixel) : (streamLsbs ps).length = 3 * ps.length := by
  induction ps with
  | nil => rfl
  | cons p ps ih => simp [streamLsbs] at *; omega

theorem streamLsbs_take (ps : List Pixel) (k : Nat) : streamLsbs (ps.take k) = (streamLsbs ps).take (3 * k) := by
  induction ps generalizing k with
  | nil => simp [streamLsbs]
  | cons p ps ih =>
    cases k with
    | zero => rfl
    | succ k =>
      have : streamLsbs (p :: ps) = [lsb p.r, lsb p.g, lsb p.b] ++ streamLsbs ps := rfl
      have h2 : streamLsbs ((p :: ps).take (k+1)) = [lsb p.r, lsb p.g, lsb p.b] ++ streamLsbs (ps.take k) := rfl
      rw [this, h2, ih, show 3 * (k+1) = 3 * k + 3 by ring]
      rfl

/-- The groups of the first n bits are the first n / 8 groups. -/
theorem groups8_take (l : List Bit) (n : Nat) : groups8 (l.take n) = (groups8 l).take (n / 8) := by
  by_cases hn : n ≤ l.length
  · have hl : l = l.take (8 * (n / 8)) ++ l.drop (8 * (n/8)) := (List.take_append_drop _ _).symm
    have h8 : (l.take (8 * (n/8))).length = 8 * (n / 8) := by simp; omega
    have e1 : l.take n = l.take (8 * (n / 8)) ++ (l.drop (8 * (n/8))).take (n - 8 * (n/8)) := by
      conv_lhs => rw [hl, List.take_append, h8]
      rw [List.take_of_length_le (by omega)]
    have hs : groups8 ((l.drop (8 * (n/8))).take (n - 8 * (n/8))) = [] := groups8_short (by simp; omega)
    have hg : (groups8 (l.take (8 * (n/8)))).length = n / 8 := by rw [groups8_length, h8]; omega
    have e2 : groups8 l = groups8 (l.take (8 * (n / 8))) ++ groups8 (l.drop (8 * (n/8))) := by
      conv_lhs => rw [hl]
      exact groups8_append _ _ (by omega)
    rw [e1, groups8_append _ _ (by omega), hs, List.append_nil, e2, List.take_append_of_le_length (by omega)]
    exact (List.take_of_length_le (by omega)).symm
  · rw [List.take_of_length_le (by omega), List.take_of_length_le (by rw [groups8_length]; omega)]

theorem portBits_append (a b) : portBits (a ++ b) = portBits a ++ portBits b := by simp [portBits]

theorem portChars_append (a b) : portChars (a ++ b) = portChars a ++ portChars b := by simp [portChars]

theorem portBits_bits (l : List Bit) : portBits (l.map PortEvent.bit) = l := by
  induction l with
  | nil => rfl
  | cons b l ih => simp [portBits]

theorem portChars_bits (l : List Bit) : portChars (l.map PortEvent.bit) = [] := by
  induction l with
  | nil => rfl
  | cons b l ih => simp [portChars]

end Sys2Proof.Machine
end

