-- ==== Sys2Proof/Tests/Slice0.lean ====
section
/-! SUPPORT. Tests: expected values are those of spec/95_test_vectors.md (the vector's id stands in the test's comment) or are
written out from the rules; and a witness for the hypotheses of every statement. -/

namespace Sys2Proof.Tests

open Sys2Proof Sys2Proof.Machine

/-- The state a step ends in. -/
def after (o : Host.Outcome State Fault Refusal) : Option State :=
  match o with
  | .next s => some s
  | .fault _ => none
  | .refused _ => none

/-- Reset, with a builder in the given state. -/
def withBb (st : BbSt) (out : List Bit) (count : Counter) : State :=
  { State.reset with bb := { st := st, out := out, count := count } }

/-- Reset, with an extractor in the given state. -/
def withEx (e : Extractor) : State := { State.reset with ex := e }

/-- An open extractor session. -/
def openEx (w h : Dim) (pixcnt : Counter) (out : List Byte) (mark : Bit) (sr : Byte) (nb : Fin 8) : Extractor :=
  { st := .active, w := w, h := h, pixcnt := pixcnt, out := out, count := BitVec.ofNat 32 out.length, mark := mark,
    sr := sr, nb := nb }

/-- The start state of 95_test_vectors.md 2.1: reset with ERR_SEQB = 1. -/
def seqbSet : State := { State.reset with err := { ill := false, seqb := true, seqx := false } }

/-- STATUS after a word. -/
def statusAfter (w : CmdWord) (s : State) : Option StatWord := (after (performWord w s)).map statusWord

/-- The decoder's answer where it is a command. -/
def decoded (w : CmdWord) : Option Instr :=
  match decode w with
  | .ok i => some i
  | .error _ => none

/-- The decoder's answer where it is ILLEGAL. -/
def illegal (w : CmdWord) : Option IllegalWord :=
  match decode w with
  | .ok _ => none
  | .error e => some e

/-! ### Decoding: words written out from the formats (R55 to R59) and the vectors E1 to E16 -/

-- NOP: opcode 00000000, 56 reserved zeros (E1)
theorem test_decode_nop : decoded 0x0000000000000000#64 = some .nop := by decide
-- BB_START: opcode 00000001
theorem test_decode_bbStart : decoded (0b00000001#8 ++ 0#56) = some .bbStart := by decide
-- BB_CHAR: opcode 00000010, 24 reserved zeros, CP (E3, E5)
theorem test_decode_bbChar : decoded (0b00000010#8 ++ 0#24 ++ 0xFFFFFFFF#32) = some (.bbChar 0xFFFFFFFF#32) ∧
    decoded 0x0200000000000041#64 = some (.bbChar 0x41#32) := by decide
-- BB_END: opcode 00000011
theorem test_decode_bbEnd : decoded (0b00000011#8 ++ 0#56) = some .bbEnd := by decide
-- EX_START: opcode 00010000, 22 reserved zeros, MODE, W, H (E6)
theorem test_decode_exStart : decoded (0b00010000#8 ++ 0#22 ++ 0b11#2 ++ 4#16 ++ 3#16) = some (.exStart 3#2 4#16 3#16) ∧
    decoded 0x1000000300040003#64 = some (.exStart 3#2 4#16 3#16) := by decide
-- EX_PIX: opcode 00010001, 32 reserved zeros, R, G, B
theorem test_decode_exPix : decoded (0b00010001#8 ++ 0#32 ++ 0x12#8 ++ 0x34#8 ++ 0x56#8) = some (.exPix 0x12#8 0x34#8 0x56#8) ∧
    decoded 0x1100000000123456#64 = some (.exPix 0x12#8 0x34#8 0x56#8) := by decide
-- ERR_CLR: opcode 00100000
theorem test_decode_errClr : decoded (0b00100000#8 ++ 0#56) = some .errClr := by decide
-- E2, E4, E7, E8, E12, E13, E14
theorem test_decode_reserved_bit : [0x0000000000000001#64, 0x0200000100000041#64, 0x1000000400040003#64,
    0x1100000001000000#64, 0x2000000000000001#64, 0x0100000000000080#64, 0x0300000080000000#64].map illegal =
    List.replicate 7 (some .reservedBitSet) := by decide
-- E10, E11, E15, E16
theorem test_decode_unassigned : [0x0400000000000000#64, 0xFF00000000000000#64, 0x1200000000000000#64,
    0x8000000000000000#64].map illegal = List.replicate 4 (some .unassignedOpcode) := by decide
-- the STATUS column of E1 to E16
theorem test_decode_status : [0x0000000000000000#64, 0x0000000000000001#64, 0x0200000000000041#64, 0x0200000100000041#64,
    0x02000000FFFFFFFF#64, 0x1000000300040003#64, 0x1000000400040003#64, 0x1100000001000000#64, 0x1100000000FFFFFF#64,
    0x0400000000000000#64, 0xFF00000000000000#64, 0x2000000000000001#64, 0x0100000000000080#64, 0x0300000080000000#64,
    0x1200000000000000#64, 0x8000000000000000#64].map (fun w => statusAfter w seqbSet) =
    [0x200#32, 0x300#32, 0x200#32, 0x300#32, 0x200#32, 0x230#32, 0x300#32, 0x300#32, 0x600#32, 0x300#32, 0x300#32, 0x300#32,
     0x300#32, 0x300#32, 0x300#32, 0x300#32].map some := by decide

-- the masks and patterns of R59 do not overlap: no two rows match one word
theorem test_opcode_rows_differ :
    opcodeTable.Pairwise fun r r' => r.pattern &&& (r.mask &&& r'.mask) ≠ r'.pattern &&& (r.mask &&& r'.mask) := by decide

-- the host's two entries: a table word decodes, and is the very next command
theorem test_decodeTableWord : decodeTableWord 64 0x0200000000000041 = some (.bbChar 0x41#32) ∧
    decodeTableWord 64 0x0400000000000000 = none ∧ decodeTableWord 72 0 = none := by decide
theorem test_withFetchWord : (after (step (State.reset.withFetchWord 64 0x1000000000040003))).map (fun t => (t.ex.st, t.ex.w, t.ex.h, t.hostIn)) =
    some (.active, 4#16, 3#16, []) := by decide

/-! ### The assembler (R63, R64): the assembler checks of 95_test_vectors.md 2.1, and an ill-formed operand per check -/

theorem test_assemble_text :
    assembleText "EX_START 4, 3".toList = some [0x1000000000040003#64] ∧
    assembleText "EX_START 4, 3, mode=1".toList = some [0x1000000100040003#64] ∧
    assembleText "EX_PIX 0x12, 0x34, 0x56".toList = some [0x1100000000123456#64] ∧
    assembleText "BB_CHAR 'A' ; 65".toList = some [0x0200000000000041#64] ∧
    assembleText ".word 0x0500000000000000".toList = some [0x0500000000000000#64] := by decide
theorem test_assemble_pseudo :
    assembleText "BB_MSG \"Hi\"".toList =
      some [0x0100000000000000#64, 0x0200000000000048#64, 0x0200000000000069#64, 0x0300000000000000#64] ∧
    assembleText "BB_STR \"Hi\"".toList = some [0x0200000000000048#64, 0x0200000000000069#64] ∧
    assembleLine (.exGrid 2 1 0 [(1, 2, 3), (4, 5, 6)]) =
      some [0x1000000000020001#64, 0x1100000000010203#64, 0x1100000000040506#64] ∧
    assembleText ("EX_GRID 2, 1, ".toList ++ [Char.ofNat 123] ++ "(1, 2, 3), (4, 5, 6)".toList ++ [Char.ofNat 125]) =
      some [0x1000000000020001#64, 0x1100000000010203#64, 0x1100000000040506#64] := by decide
theorem test_assemble_errors :
    assembleText "EX_START 65536, 1".toList = none ∧ assembleText "EX_PIX 256, 0, 0".toList = none ∧
    assembleText "BB_CHARS 1".toList = none := by decide

-- WellFormed: every Instr is a legal command (R62); each range check refuses the first value that does not fit
theorem test_wellFormed_values_are_legal : (Instr.bbChar 300#32).wellFormed = true ∧ (Instr.exStart 3#2 0#16 0#16).wellFormed = true := by decide
theorem test_codePoint_ill_formed : codePointFits 0xFFFFFFFF = true ∧ codePointFits 0x100000000 = false ∧
    assembleLine (.bbChar 0x100000000) = none := by decide
theorem test_dim_ill_formed : dimFits 65535 = true ∧ dimFits 65536 = false ∧
    assembleLine (.exStart 65536 1 0) = none ∧ assembleLine (.exStart 1 65536 0) = none := by decide
theorem test_mode_ill_formed : modeFits 3 = true ∧ modeFits 4 = false ∧ assembleLine (.exStart 1 1 4) = none := by decide
theorem test_channel_ill_formed : channelFits 255 = true ∧ channelFits 256 = false ∧
    assembleLine (.exPix 256 0 0) = none ∧ assembleLine (.exPix 0 256 0) = none ∧ assembleLine (.exPix 0 0 256) = none := by decide
theorem test_word_ill_formed : wordFits 0xFFFFFFFFFFFFFFFF = true ∧ wordFits 0x10000000000000000 = false ∧
    assembleLine (.word 0x10000000000000000) = none := by decide

/-! ### The commands, one step each -/

-- G1
theorem test_nop : after (exec .nop seqbSet) = some seqbSet := by decide
-- B12, B13: BB_START leaves a failed session and abandons an open one
theorem test_bbStart : (after (exec .bbStart (withBb .encErr [] 0#32))).map (·.bb) = some { st := .active, out := [], count := 0#32 } ∧
    (after (exec .bbStart (withBb .active [true] 1#32))).map (·.bb) = some { st := .active, out := [], count := 0#32 } := by decide
-- L1.3: 'H' = 01001000
theorem test_bbChar_bits : (after (exec (.bbChar 0x48#32) (withBb .active [] 0#32))).map (fun t => (t.bb, t.portLog)) =
    some ({ st := .active, out := [false, true, false, false, true, false, false, false], count := 8#32 },
      [.bit false, .bit true, .bit false, .bit false, .bit true, .bit false, .bit false, .bit false]) := by decide
-- B5, B8, B14, B15, B16, and the edge of the counter (93_implementation_defined.md I12)
theorem test_bbChar_limits :
    (after (exec (.bbChar 256#32) (withBb .active [true] 1#32))).map (·.bb) = some { st := .encErr, out := [true], count := 1#32 } ∧
    (after (exec (.bbChar 0x41#32) State.reset)).map (fun t => (t.bb.st, statusWord t)) = some (.idle, 0x200#32) ∧
    (after (exec (.bbChar 0#32) (withBb .active [] 4294967280#32))).map (fun t => (t.bb.st, t.bb.count)) = some (.active, 4294967288#32) ∧
    (after (exec (.bbChar 0#32) (withBb .active [] 4294967288#32))).map (fun t => (t.bb.st, t.bb.count)) = some (.ovfErr, 4294967288#32) ∧
    (after (exec (.bbChar 256#32) (withBb .active [] 4294967288#32))).map (fun t => (t.bb.st, t.bb.count)) = some (.encErr, 4294967288#32) := by
  decide
-- B1
theorem test_bbEnd_marker : (after (exec .bbEnd (withBb .active [] 0#32))).map (fun t => (t.bb, statusWord t)) =
    some ({ st := .done, out := [true, true, true, true, true, true, true, true, true, true, true, true, true, true, true, false],
            count := 16#32 }, 0x2#32) := by decide
-- B9, B10, B11, B17, B18
theorem test_bbEnd_limits :
    (after (exec .bbEnd State.reset)).map statusWord = some 0x200#32 ∧
    (after (exec .bbEnd (withBb .done [] 16#32))).map statusWord = some 0x202#32 ∧
    (after (exec .bbEnd (withBb .encErr [] 0#32))).map statusWord = some 0x3#32 ∧
    (after (exec .bbEnd (withBb .active [] 4294967272#32))).map (fun t => (t.bb.st, t.bb.count)) = some (.done, 4294967288#32) ∧
    (after (exec .bbEnd (withBb .active [] 4294967280#32))).map (fun t => (t.bb.st, t.bb.count)) = some (.ovfErr, 4294967280#32) := by
  decide
-- X1 to X5: STATUS and STAT[4]
theorem test_exStart : [(Instr.exStart 0#2 4#16 3#16), .exStart 0#2 0#16 3#16, .exStart 0#2 4#16 0#16, .exStart 1#2 4#16 3#16,
      .exStart 0#2 0#16 0#16].map (fun i => (after (exec i State.reset)).map fun t => (stat t 0#3, stat t 4#3)) =
    [some (0x10#32, 0x00040003#32), some (0x30#32, 0x00000003#32), some (0x30#32, 0x00040000#32), some (0x30#32, 0x00040003#32),
     some (0x30#32, 0x00000000#32)] := by decide
-- X18
theorem test_exStart_abandons : (after (exec (.exStart 0#2 1#16 1#16) (withEx (openEx 4#16 3#16 3#32 [0x48#8] false 0#8 1)))).map (·.ex) =
    some (openEx 1#16 1#16 0#32 [] false 0#8 0) := by decide
-- X13 (completion in G), X14 (the marker in R), X15 (after the marker), P2 step 9 (completion in B)
theorem test_exPix_collects :
    (after (exec (.exPix 0x01#8 0x01#8 0x00#8) (withEx (openEx 8#16 1#16 2#32 [] false 0x2A#8 6)))).map (·.ex) =
      some (openEx 8#16 1#16 3#32 [0xAB#8] false 0x00#8 1) ∧
    (after (exec (.exPix 0x80#8 0x81#8 0x80#8) (withEx (openEx 8#16 1#16 5#32 [0x41#8] false 0x7F#8 7)))).map (·.ex) =
      some (openEx 8#16 1#16 6#32 [0x41#8] true 0x00#8 0) ∧
    (after (exec (.exPix 0xFF#8 0xFF#8 0xFF#8) (withEx (openEx 4#16 3#16 5#32 [] true 0x00#8 0)))).map (·.ex) =
      some (openEx 4#16 3#16 6#32 [] true 0x00#8 0) ∧
    (after (exec (.exPix 0x81#8 0x81#8 0x81#8) (withEx (openEx 4#16 3#16 7#32 [0x48#8, 0x69#8] false 0x1F#8 5)))).map (fun t => (t.ex, t.portLog)) =
      some (openEx 4#16 3#16 8#32 [0x48#8, 0x69#8, 0xFF#8] false 0x00#8 0, [.char 0xFF#8]) := by decide
-- P5 step 7 (the last pixel; the pending B bit is dropped), X16, X17, X2
theorem test_exPix_ends :
    (after (exec (.exPix 0x00#8 0x01#8 0x01#8) (withEx (openEx 1#16 3#16 2#32 [] false 0x10#8 6)))).map (·.ex) =
      some { (openEx 1#16 3#16 3#32 [0x41#8] false 0x00#8 0) with st := .done } ∧
    (after (exec (.exPix 0x01#8 0x02#8 0x03#8) State.reset)).map statusWord = some 0x400#32 ∧
    (after (exec (.exPix 0x00#8 0x00#8 0x00#8) (withEx { (openEx 2#16 1#16 2#32 [] false 0#8 0) with st := .done }))).map (fun t => (statusWord t, stat t 3#3)) =
      some (0x420#32, 2#32) ∧
    (after (exec (.exPix 0x01#8 0x01#8 0x01#8) (withEx { (openEx 0#16 3#16 0#32 [] false 0#8 0) with st := .fmtErr }))).map (fun t => (statusWord t, stat t 3#3)) =
      some (0x30#32, 0#32) := by decide
-- G2, G4
theorem test_errClr : (after (exec .errClr { State.reset with err := { ill := true, seqb := true, seqx := false } })).map statusWord = some 0#32 ∧
    (after (exec .errClr { (withBb .encErr [] 0#32) with err := { ill := true, seqb := false, seqx := false } })).map statusWord = some 0x3#32 := by
  decide

/-! ### Inputs other than commands -/

-- G7: the end state of G6, then a RESET event
theorem test_reset_event :
    let s : State :=
      { bb := { st := .done, out := Config.marker, count := 16#32 }
        ex := { (openEx 1#16 1#16 1#32 [] false 0#8 0) with st := .done }
        err := { ill := true, seqb := true, seqx := true }
        hostIn := [.reset]
        portLog := [] }
    (List.range 8).map (fun i => stat s (BitVec.ofNat 3 i)) = [0x722#32, 0x10#32, 0#32, 1#32, 0x00010001#32, 0#32, 0#32, 0#32] ∧
    after (step s) = some State.reset := by decide
-- a STAT read goes to the host and changes nothing else
theorem test_stat_read : after (step { (withBb .active [true] 1#32) with hostIn := [.readStat 1#3] }) =
    some { (withBb .active [true] 1#32) with portLog := [.stat 1#3 1#32] } := by decide
-- where the host presents nothing, BSX waits
theorem test_waits : after (step State.reset) = some State.reset := by decide

/-! ### The reference functions -/

-- T1, T2, T3
theorem test_traversal : traversalIndex 4 ⟨1, 2, .g⟩ = 28 ∧ placeAt 4 35 = ⟨3, 2, .b⟩ ∧
    traversal 2 2 = [⟨0, 0, .r⟩, ⟨0, 0, .g⟩, ⟨0, 0, .b⟩, ⟨1, 0, .r⟩, ⟨1, 0, .g⟩, ⟨1, 0, .b⟩,
      ⟨0, 1, .r⟩, ⟨0, 1, .g⟩, ⟨0, 1, .b⟩, ⟨1, 1, .r⟩, ⟨1, 1, .g⟩, ⟨1, 1, .b⟩] := by decide
-- T5, L1.6
theorem test_lsb : [0x00#8, 0x01#8, 0x80#8, 0x81#8, 0xFE#8, 0xFF#8].map lsb = [false, true, false, true, false, true] ∧
    writeLsb 0x80#8 true = 0x81#8 ∧ writeLsb 0x81#8 false = 0x80#8 ∧ writeLsb 0xFF#8 false = 0xFE#8 ∧ writeLsb 0x10#8 false = 0x10#8 := by decide
-- X7, X11, X12: what three pixels' LSBs decode to
theorem test_extract_bits :
    extractBits [false, true, false, false, false, false, true, false, true] = [0x42#8] ∧
    extractBits [true, true, true, true, true, true, true, false, true] = [] ∧
    extractBits [true, true, true, true, true, true, true, true, true] = [0xFF#8] := by decide
-- L1.1: 32 bits do not fit a 2×2 grid, and fit a 4×3 grid (L1.2)
theorem test_capacity : fitsCapacity (withBb .done [] 32#32) 2 2 = false ∧ fitsCapacity (withBb .done [] 32#32) 4 3 = true := by decide

/-! ### Witnesses: for each statement with hypotheses, values that meet them, one per clause, at the ends of the ranges -/

theorem witness_DecodeOfEncodeIsTheCommand : (Instr.exStart 3#2 65535#16 65535#16).wellFormed = true := by decide

theorem witness_EncodeOfDecodeIsTheWord : decode 0x02000000FFFFFFFF#64 = .ok (.bbChar 0xFFFFFFFF#32) := by rfl

theorem witness_DecodeAgreesWithTheOpcodeTable :
    (⟨.BB_CHAR, .c, 0x0200000000000000#64, 0xFFFFFFFF00000000#64⟩ : OpcodeRow) ∈ opcodeTable ∧
    0x02000000FFFFFFFF#64 &&& 0xFFFFFFFF00000000#64 = 0x0200000000000000#64 := by decide

theorem witness_DecodeIsTotalAndReadsTheFields :
    decode 0x02000000FFFFFFFF#64 = .ok (.bbChar 0xFFFFFFFF#32) ∧
    decode 0x10000003FFFFFFFF#64 = .ok (.exStart 3#2 65535#16 65535#16) ∧
    decode 0x1100000000FFFFFF#64 = .ok (.exPix 0xFF#8 0xFF#8 0xFF#8) := ⟨rfl, rfl, rfl⟩

theorem witness_IllegalWordsAreTheTwoCases :
    decode 0xFF00000000000000#64 = .error .unassignedOpcode ∧ decode 0x0200000100000041#64 = .error .reservedBitSet := ⟨rfl, rfl⟩

theorem witness_AssemblerFollowsItsFormulas :
    (∀ c ∈ [0, 0xFFFFFFFF], c < 2 ^ 32) ∧
    ∃ (gr : Grid) (m : Nat), gr.width = 65535 ∧ gr.height = 65535 ∧ gr.width < 2 ^ 16 ∧ gr.height < 2 ^ 16 ∧ m < 4 :=
  ⟨by decide, ⟨65535, 65535, fun _ _ => ⟨0#8, 0#8, 0#8⟩⟩, 3, rfl, rfl, by decide, by decide, by decide⟩

theorem witness_StepRunsTheDecodedCommand : ∃ s : State, s.hostIn = .cmd 0x0100000000000000#64 :: [.reset] ∧
    decode 0x0100000000000000#64 = .ok .bbStart :=
  ⟨{ State.reset with hostIn := [.cmd 0x0100000000000000#64, .reset] }, rfl, rfl⟩

theorem witness_IllegalWordSetsOnlyErrIll : ∃ s : State, s.hostIn = .cmd 0xFF00000000000000#64 :: [] ∧
    decode 0xFF00000000000000#64 = .error .unassignedOpcode :=
  ⟨{ State.reset with hostIn := [.cmd 0xFF00000000000000#64] }, rfl, rfl⟩

theorem witness_ResetSetsEveryField : ∃ s : State, s.hostIn = .reset :: [] ∧ s.err.seqb = true :=
  ⟨{ seqbSet with hostIn := [.reset] }, rfl, rfl⟩

theorem witness_StatReadChangesNoField : ∃ s : State, s.hostIn = .readStat 7#3 :: [] :=
  ⟨{ seqbSet with hostIn := [.readStat 7#3] }, rfl⟩

theorem witness_StepWaitsForTheHost : State.reset.hostIn = [] := rfl

theorem witness_BbStartOpensAnEmptySession :
    exec .bbStart State.reset = .next (withBb .active [] 0#32) ∧
    exec .bbStart (withBb .active [] 0#32) = .next (withBb .active [] 0#32) := ⟨rfl, rfl⟩

theorem witness_BbCharFollowsItsRule :
    ((withBb .active [] 4294967287#32).bb.st = .active ∧ (255#32).toNat ≤ 255 ∧
      (withBb .active [] 4294967287#32).bb.count.toNat + 8 ≤ 2 ^ 32 - 1) ∧
    ((withBb .active [] 0#32).bb.st = .active ∧ 255 < (256#32).toNat) ∧
    ((withBb .active [] 4294967288#32).bb.st = .active ∧ (255#32).toNat ≤ 255 ∧
      2 ^ 32 - 1 < (withBb .active [] 4294967288#32).bb.count.toNat + 8) ∧
    (State.reset.bb.st = .idle ∧ (withBb .done [] 16#32).bb.st = .done) ∧
    ((withBb .encErr [] 0#32).bb.st = .encErr ∧ (withBb .ovfErr [] 0#32).bb.st = .ovfErr) := by decide

theorem witness_BbEndFollowsItsRule :
    ((withBb .active [] 4294967279#32).bb.st = .active ∧ (withBb .active [] 4294967279#32).bb.count.toNat + 16 ≤ 2 ^ 32 - 1) ∧
    ((withBb .active [] 4294967280#32).bb.st = .active ∧ 2 ^ 32 - 1 < (withBb .active [] 4294967280#32).bb.count.toNat + 16) ∧
    (State.reset.bb.st = .idle ∧ (withBb .done [] 16#32).bb.st = .done) ∧
    ((withBb .encErr [] 0#32).bb.st = .encErr ∧ (withBb .ovfErr [] 0#32).bb.st = .ovfErr) := by decide

theorem witness_StrayDataCommandsOnlySetTheUnitsFlag :
    ((∃ cp, Instr.bbChar 0#32 = .bbChar cp) ∧ State.reset.bb.st = .idle) ∧
    (Instr.bbEnd = .bbEnd ∧ (withBb .ovfErr [] 0#32).bb.st = .ovfErr) ∧
    ((∃ r g b, Instr.exPix 1#8 2#8 3#8 = .exPix r g b) ∧ State.reset.ex.st = .idle) ∧
    (∃ e : Extractor, (withEx e).ex.st = .fmtErr) :=
  ⟨⟨⟨_, rfl⟩, rfl⟩, ⟨rfl, rfl⟩, ⟨⟨_, _, _, rfl⟩, rfl⟩, ⟨{ Extractor.reset with st := .fmtErr }, rfl⟩⟩

theorem witness_EncodingErrorComesBeforeOverflow :
    255 < (256#32).toNat ∧ 2 ^ 32 - 1 < (withBb .active [] 4294967288#32).bb.count.toNat + 8 := by decide

theorem witness_ExStartOpensOrRejectsTheGrid :
    ((0#2).toNat = 0 ∧ 0 < (1#16).toNat ∧ 0 < (65535#16).toNat) ∧ (1#2).toNat ≠ 0 ∧ (0#16).toNat = 0 := by decide

/-- A reachable open session of a 4×3 grid, with given pending bits. -/
theorem openEx_inv {w h : Dim} {n : Counter} {out : List Byte} {mark : Bit} {sr : Byte} {nb : Fin 8}
    (h1 : (BitVec.ofNat 32 out.length).toNat = out.length) (h2 : Config.markByte ∉ out) (h3 : sr.toNat < 2 ^ nb.val)
    (h4 : mark = true → sr = 0#8 ∧ nb = 0) (h5 : n.toNat < w.toNat * h.toNat)
    (h6 : mark = false → 8 * out.length + nb.val = 3 * n.toNat) (h7 : mark = true → 8 * (out.length + 1) ≤ 3 * n.toNat) :
    ExtractorInv (openEx w h n out mark sr nb) :=
  ⟨h1, h2, h3, h4, h5, h6, h7⟩

-- P2 after steps 2, 6, 11 and 12, and X9 before its last pixel
theorem witness_ExPixConsumesTheNextPixel :
    (ExtractorInv (openEx 4#16 3#16 1#32 [] false 0x02#8 3) ∧
      (pendingBits (openEx 4#16 3#16 1#32 [] false 0x02#8 3) ++ [lsb 0x80#8, lsb 0x81#8, lsb 0x80#8]).length < 8) ∧
    (ExtractorInv (openEx 4#16 3#16 5#32 [0x48#8] false 0x34#8 7) ∧
      byteOf ((pendingBits (openEx 4#16 3#16 5#32 [0x48#8] false 0x34#8 7) ++ [lsb 0x81#8, lsb 0x81#8, lsb 0x81#8]).take 8) ≠ 0xFE#8) ∧
    (ExtractorInv (openEx 4#16 3#16 10#32 [0x48#8, 0x69#8, 0xFF#8] false 0x3F#8 6) ∧
      byteOf ((pendingBits (openEx 4#16 3#16 10#32 [0x48#8, 0x69#8, 0xFF#8] false 0x3F#8 6) ++ [lsb 0x81#8, lsb 0x80#8, lsb 0x80#8]).take 8) = 0xFE#8) ∧
    (ExtractorInv (openEx 4#16 3#16 11#32 [0x48#8, 0x69#8, 0xFF#8] true 0#8 0) ∧ 11 + 1 = (4#16).toNat * (3#16).toNat) ∧
    State.reset.ex.st = .idle ∧ (∃ e : Extractor, (withEx e).ex.st = .fmtErr) :=
  ⟨⟨openEx_inv (by decide) (by decide) (by decide) (by decide) (by decide) (by decide) (by decide), by decide⟩,
   ⟨openEx_inv (by decide) (by decide) (by decide) (by decide) (by decide) (by decide) (by decide), by decide⟩,
   ⟨openEx_inv (by decide) (by decide) (by decide) (by decide) (by decide) (by decide) (by decide), by decide⟩,
   ⟨openEx_inv (by decide) (by decide) (by decide) (by decide) (by decide) (by decide) (by decide), by decide⟩,
   rfl, ⟨{ Extractor.reset with st := .fmtErr }, rfl⟩⟩

-- P2 before steps 9, 4 and 7: EX_NB = 5, 6 and 7
theorem witness_GroupCompletesInTheChannelThatNbGives :
    (ExtractorInv (openEx 4#16 3#16 7#32 [0x48#8, 0x69#8] false 0x1F#8 5) ∧ (0xFF#8).toNat = 8 * (0x1F#8).toNat + 4 * 1 + 2 * 1 + 1) ∧
    (ExtractorInv (openEx 4#16 3#16 2#32 [] false 0x12#8 6) ∧ (0x48#8).toNat = 4 * (0x12#8).toNat + 2 * 0 + 0) ∧
    (ExtractorInv (openEx 4#16 3#16 5#32 [0x48#8] false 0x34#8 7) ∧ (0x69#8).toNat = 2 * (0x34#8).toNat + 1) :=
  ⟨⟨openEx_inv (by decide) (by decide) (by decide) (by decide) (by decide) (by decide) (by decide), by decide⟩,
   ⟨openEx_inv (by decide) (by decide) (by decide) (by decide) (by decide) (by decide) (by decide), by decide⟩,
   ⟨openEx_inv (by decide) (by decide) (by decide) (by decide) (by decide) (by decide) (by decide), by decide⟩⟩

theorem witness_OnlyTheLsbOfAChannelMatters : lsb 0xFE#8 = lsb 0x00#8 ∧ lsb 0xFF#8 = lsb 0x01#8 ∧ 0 < 7 := by decide

theorem witness_NopChangesNothing : (0x00FFFFFFFFFFFFFF#64).toNat / 2 ^ 56 = 0x00 ∧
    0x00FFFFFFFFFFFFFF#64 ≠ 0x0000000000000000#64 := by decide

theorem witness_ErrClrClearsTheFlags : (0x2000000000000001#64).toNat / 2 ^ 56 = 0x20 ∧
    0x2000000000000001#64 ≠ 0x2000000000000000#64 := by decide

theorem witness_StatRegistersReadTheState : 11 ≤ 11 ∧ 3 = 3 ∧ 7 = 7 := by decide

-- a DONE builder with a message, and a DONE extractor without a marker (X7)
theorem doneBuilder_inv : BuilderInv { st := .done, out := messageBits [0x41] ++ Config.marker, count := 24#32 } :=
  ⟨by decide, [0x41], by decide, rfl⟩

theorem witness_StepKeepsTheBuilderInvariant :
    BuilderInv (withBb .active (messageBits [0x41]) 8#32).bb ∧
    ∃ t, step (State.withFetchWord (withBb .active (messageBits [0x41]) 8#32) 64 0x0300000000000000) = .next t ∧ t.bb.st = .done :=
  ⟨⟨by decide, [0x41], by decide, rfl⟩, _, rfl, rfl⟩

theorem witness_StepKeepsTheExtractorInvariant :
    ExtractorInv (withEx (openEx 4#16 3#16 10#32 [0x48#8, 0x69#8, 0xFF#8] false 0x3F#8 6)).ex ∧
    ∃ t, step (State.withFetchWord (withEx (openEx 4#16 3#16 10#32 [0x48#8, 0x69#8, 0xFF#8] false 0x3F#8 6)) 64 0x1100000000818080) = .next t ∧
      t.ex.mark = true :=
  ⟨openEx_inv (by decide) (by decide) (by decide) (by decide) (by decide) (by decide) (by decide), _, rfl, rfl⟩

theorem witness_StepKeepsTheEmissionRecords :
    RecordInv { (withBb .active [true] 1#32) with portLog := [.bit false, .bit true] } ∧
    ∃ t, step (State.withFetchWord { (withBb .active [true] 1#32) with portLog := [.bit false, .bit true] } 64 0x0200000000000041) = .next t :=
  ⟨⟨⟨[false], rfl⟩, ⟨[], rfl⟩⟩, _, rfl⟩

theorem witness_ExtractorCountersStayInRange :
    ExtractorInv (openEx 4#16 3#16 11#32 [0x48#8, 0x69#8, 0xFF#8] true 0#8 0) :=
  openEx_inv (by decide) (by decide) (by decide) (by decide) (by decide) (by decide) (by decide)

theorem witness_ResultsAreThoseOfTheSessionStates :
    BuilderInv (withBb .done (messageBits [0x41] ++ Config.marker) 24#32).bb ∧
    bbResult (withBb .done (messageBits [0x41] ++ Config.marker) 24#32) = some (.bitstream (messageBits [0x41] ++ Config.marker)) ∧
    ExtractorInv State.reset.ex :=
  ⟨doneBuilder_inv, rfl, by decide, by decide, by decide, by decide, rfl⟩

theorem witness_ErrorFlagsAreSticky :
    (∃ t, step (seqbSet.withFetchWord 64 0x0000000000000000) = .next t ∧ seqbSet.err.seqb = true ∧
      (seqbSet.withFetchWord 64 0).hostIn.head? ≠ some .reset ∧
      (seqbSet.withFetchWord 64 0).hostIn.head? ≠ some (.cmd (encode .errClr))) ∧
    (∃ t, step (State.reset.withFetchWord 64 0xFF00000000000000) = .next t ∧ State.reset.err.ill = false ∧ t.err.ill = true) :=
  ⟨⟨_, rfl, rfl, by decide, by decide⟩, ⟨_, rfl, rfl, rfl⟩⟩

theorem witness_ClosedUnitsChangeOnlyByStartOrReset :
    ∃ s t : State, step s = .next t ∧ s.bb.st ≠ .active ∧ s.ex.st ≠ .active ∧ s.hostIn.head? ≠ some .reset ∧
      s.hostIn.head? ≠ some (.cmd (encode .bbStart)) ∧ ∀ m w h, s.hostIn.head? ≠ some (.cmd (encode (.exStart m w h))) :=
  ⟨State.reset, State.reset, rfl, by decide, by decide, by decide, by decide, by intro m w h hh; cases hh⟩

theorem witness_DimensionsAreImmutableInASession :
    ∃ s t : State, step s = .next t ∧ s.ex.w = 4#16 ∧ s.hostIn.head? ≠ some .reset ∧
      ∀ m w h, s.hostIn.head? ≠ some (.cmd (encode (.exStart m w h))) :=
  ⟨withEx (openEx 4#16 3#16 0#32 [] false 0#8 0), _, rfl, rfl, by decide, by intro m w h hh; cases hh⟩

theorem witness_MarkerMakesTheOutputFinal :
    ∃ s t : State, s.ex.mark = true ∧ step s = .next t ∧ s.hostIn.head? ≠ some .reset ∧
      ∀ m w h, s.hostIn.head? ≠ some (.cmd (encode (.exStart m w h))) :=
  ⟨withEx (openEx 4#16 3#16 5#32 [] true 0#8 0), _, rfl, rfl, by decide, by intro m w h hh; cases hh⟩

theorem witness_CommandsTouchOnlyTheirOwnUnit : isBb (.bbChar 0x41#32) = true ∧ isEx (.exPix 1#8 2#8 3#8) = true := by decide

theorem witness_InterleavedUnitsAreIndependent :
    ∀ i ∈ [Instr.bbStart, .exStart 0#2 1#16 3#16, .bbChar 0x43#32, .exPix 0#8 1#8 0#8], isBb i = true ∨ isEx i = true := by decide

-- a session with an EX command in it; a code point that does not encode at index 1
theorem witness_BuilderSessionComputesBuild :
    (∀ i ∈ [Instr.bbStart, .exPix 0#8 1#8 0#8, .bbChar 0x41#32, .bbChar 256#32, .bbEnd], isBb i = true ∨ isEx i = true) ∧
    [Instr.bbStart, .exPix 0#8 1#8 0#8, .bbChar 0x41#32, .bbChar 256#32, .bbEnd].filter isBb =
      [.bbStart] ++ [0x41#32, 256#32].map Instr.bbChar ++ [.bbEnd] ∧
    (∃ h : 1 < [0x41#32, 256#32].length, 255 < [0x41#32, 256#32][1].toNat) ∧
    (∀ c ∈ [0x41#32, 256#32].take 1, c.toNat ≤ 255) ∧ 8 * 1 ≤ 2 ^ 32 - 1 ∧
    (∀ c ∈ [0x41#32, 255#32], c.toNat ≤ 255) ∧ 8 * [0x41#32, 255#32].length + 16 ≤ 2 ^ 32 - 1 :=
  ⟨by decide, by decide, ⟨by simp, by simp⟩, by simp, by norm_num, by simp, by simp⟩

/-- A message of n characters 'A', and then one that does not encode. -/
theorem long_session (n : Nat) :
    (∀ i ∈ [Instr.bbStart] ++ (List.replicate n 0x41#32).map Instr.bbChar ++ [Instr.bbEnd], isBb i = true ∨ isEx i = true) ∧
    ([Instr.bbStart] ++ (List.replicate n 0x41#32).map Instr.bbChar ++ [Instr.bbEnd]).filter isBb =
      [.bbStart] ++ (List.replicate n 0x41#32).map Instr.bbChar ++ [.bbEnd] ∧
    (∀ c ∈ List.replicate n 0x41#32, c.toNat ≤ 255) ∧
    (List.replicate n 0x41#32).length = n ∧
    (∃ h : n < (List.replicate n 0x41#32 ++ [256#32]).length, 255 < (List.replicate n 0x41#32 ++ [256#32])[n].toNat) ∧
    (∀ c ∈ (List.replicate n 0x41#32 ++ [256#32]).take n, c.toNat ≤ 255) := by
  refine ⟨?_, ?_, ?_, ?_, ?_, ?_⟩
  · intro i hi; simp [List.mem_replicate] at hi; rcases hi with rfl | ⟨_, rfl⟩ | rfl <;> decide
  · rw [List.filter_eq_self]
    intro i hi; simp [List.mem_replicate] at hi; rcases hi with rfl | ⟨_, rfl⟩ | rfl <;> decide
  · intro c hc; rw [(List.mem_replicate.mp hc).2]; decide
  · simp
  · refine ⟨by simp, ?_⟩
    simp
  · intro c hc; simp at hc; rw [hc.2]; decide

theorem witness_BuilderSessionComputesBuild_overflow :
    ∃ m : List CodePoint, (∀ c ∈ m, c.toNat ≤ 255) ∧ 2 ^ 32 - 1 < 8 * m.length + 16 :=
  ⟨List.replicate 536870910 0x41#32, (long_session 536870910).2.2.1,
    by rw [(long_session 536870910).2.2.2.1]; decide⟩

theorem witness_BuilderSessionComputesBuild_late :
    ∃ (m : List CodePoint) (j : Nat), (∃ h : j < m.length, 255 < m[j].toNat) ∧ (∀ c ∈ m.take j, c.toNat ≤ 255) ∧ 2 ^ 32 - 1 < 8 * j :=
  ⟨List.replicate 536870912 0x41#32 ++ [256#32], 536870912, (long_session 536870912).2.2.2.2.1,
    (long_session 536870912).2.2.2.2.2, by decide⟩

/-- A grid of equal pixels. -/
def plain (w h : Nat) (p : Pixel) : Grid := { width := w, height := h, pixel := fun _ _ => p }

-- after one of two pixels, with a BB command in between, and after both
theorem witness_ExtractorSessionComputesExtract :
    (1 ≤ (plain 2 1 ⟨1#8, 0#8, 1#8⟩).width ∧ (plain 2 1 ⟨1#8, 0#8, 1#8⟩).width ≤ 65535 ∧
      1 ≤ (plain 2 1 ⟨1#8, 0#8, 1#8⟩).height ∧ (plain 2 1 ⟨1#8, 0#8, 1#8⟩).height ≤ 65535) ∧
    (∀ i ∈ [Instr.exStart 0#2 2#16 1#16, .bbStart, .exPix 1#8 0#8 1#8, .exPix 1#8 0#8 1#8], isBb i = true ∨ isEx i = true) ∧
    [Instr.exStart 0#2 2#16 1#16, .bbStart, .exPix 1#8 0#8 1#8].filter isEx =
      .exStart 0#2 (BitVec.ofNat 16 2) (BitVec.ofNat 16 1) ::
        ((plain 2 1 ⟨1#8, 0#8, 1#8⟩).pixels.take 1).map (fun p => .exPix p.r p.g p.b) ∧
    [Instr.exStart 0#2 2#16 1#16, .bbStart, .exPix 1#8 0#8 1#8, .exPix 1#8 0#8 1#8].filter isEx =
      .exStart 0#2 (BitVec.ofNat 16 2) (BitVec.ofNat 16 1) ::
        ((plain 2 1 ⟨1#8, 0#8, 1#8⟩).pixels.take 2).map (fun p => .exPix p.r p.g p.b) := by decide

-- the greatest dimension, no pixel sent yet
theorem witness_ExtractorSessionComputesExtract_wide :
    (plain 65535 65535 ⟨0#8, 0#8, 0#8⟩).width ≤ 65535 ∧ 0 ≤ 65535 * 65535 ∧
    [Instr.exStart 0#2 65535#16 65535#16].filter isEx =
      [Instr.exStart 0#2 (BitVec.ofNat 16 65535) (BitVec.ofNat 16 65535)] := by decide

theorem witness_AnyPixelStreamIsTheExtractionOfItsOwnGrid :
    1 ≤ 3 ∧ 3 ≤ 65535 ∧ 1 ≤ 1 ∧ 1 ≤ 65535 ∧ [(⟨0#8, 1#8, 0#8⟩ : Pixel), ⟨0#8, 0#8, 0#8⟩, ⟨1#8, 0#8, 1#8⟩].length = 3 * 1 := by decide

theorem witness_BitstreamIsAlignedToGroups : build [0x41, 255] = .ok (messageBits [0x41, 255] ++ Config.marker) := rfl

theorem witness_BuildFailsExactlyAbove255 : (∀ c ∈ [0, 255], c ≤ 255) ∧ 1 < [0, 255].length ∧ 7 < 8 ∧ 15 < 16 := by decide

theorem witness_TraversalIndexIsThePlace : 3 < 4 ∧ 2 < 3 ∧ 35 < 3 * (4 * 3) ∧
    (plain 4 3 ⟨0#8, 0#8, 0#8⟩).width = 4 ∧ (plain 4 3 ⟨0#8, 0#8, 0#8⟩).height = 3 := by decide

theorem witness_PixelStreamIsTheTraversal : 11 < (plain 4 3 ⟨0#8, 0#8, 0#8⟩).width * (plain 4 3 ⟨0#8, 0#8, 0#8⟩).height := by decide

-- the message of L1.7, which fills its grid exactly, and a message with 254 in it
theorem witness_RoundTripGivesTheMessageAndFF :
    (∀ c ∈ [0x41], c ≤ 255) ∧ 8 * [0x41].length + 16 ≤ 3 * (plain 4 2 ⟨0#8, 0#8, 0#8⟩).width * (plain 4 2 ⟨0#8, 0#8, 0#8⟩).height ∧
    254 ∉ [0x41] ∧
    (∀ c ∈ [0x41, 254, 0x42], c ≤ 255) ∧ 8 * [0x41, 254, 0x42].length + 16 ≤ 3 * (plain 4 4 ⟨0#8, 0#8, 0#8⟩).width * (plain 4 4 ⟨0#8, 0#8, 0#8⟩).height ∧
    [0x41, 254, 0x42][1]? = some 254 ∧ 254 ∉ [0x41, 254, 0x42].take 1 := by decide

end Sys2Proof.Tests
end

section
/-! SUPPORT. What a builder command does, stated once over the builder alone (spec/10_state.md R28; spec/41_builder.md R71 to
R73). -/

namespace Sys2Proof.Machine

/-- What a builder command leaves and emits: the builder after it, whether it sets ERR_SEQB, the bits on BIT_OUT. -/
structure BuilderEffect where
  bb : Builder
  stray : Bit := false
  bits : List Bit := []

/-- The effect carried out in a state: only the builder, ERR_SEQB and the record of the ports are written. -/
def BuilderEffect.applyTo (f : BuilderEffect) (s : State) : State :=
  { s with bb := f.bb, err.seqb := s.err.seqb || f.stray, portLog := s.portLog ++ f.bits.map PortEvent.bit }

namespace BuilderEffect

variable (f : BuilderEffect) (s : State)

@[simp] theorem applyTo_bb : (f.applyTo s).bb = f.bb := rfl
@[simp] theorem applyTo_ex : (f.applyTo s).ex = s.ex := rfl
@[simp] theorem applyTo_err : (f.applyTo s).err = { s.err with seqb := s.err.seqb || f.stray } := rfl
@[simp] theorem applyTo_hostIn : (f.applyTo s).hostIn = s.hostIn := rfl
@[simp] theorem applyTo_portLog : (f.applyTo s).portLog = s.portLog ++ f.bits.map PortEvent.bit := rfl

/-- An effect that sets no flag and emits nothing only replaces the builder. -/
theorem applyTo_quiet (b : Builder) : applyTo { bb := b } s = { s with bb := b } := by
  simp [applyTo]

theorem applyTo_stray : applyTo { bb := s.bb, stray := true } s = recordError .sequenceB s := by
  simp [applyTo, recordError]

end BuilderEffect

/-- The effect of each builder command on a builder b, with the checks that lead to it (R71, R72, R73). -/
inductive BuilderEffectOf (b : Builder) : Instr → BuilderEffect → Prop
  | opened : BuilderEffectOf b .bbStart { bb := { st := .active, out := [], count := 0#32 } }
  | stray {i : Instr} (hi : isBb i = true) (hne : i ≠ .bbStart) (hst : b.st = .idle ∨ b.st = .done) :
      BuilderEffectOf b i { bb := b, stray := true }
  | ignored {i : Instr} (hi : isBb i = true) (hne : i ≠ .bbStart) (hst : b.st = .encErr ∨ b.st = .ovfErr) :
      BuilderEffectOf b i { bb := b }
  | tooLarge {cp : CodePoint} (hst : b.st = .active) (hcp : codePointTooLarge cp = true) :
      BuilderEffectOf b (.bbChar cp) { bb := { b with st := .encErr } }
  | charOverflow {cp : CodePoint} (hst : b.st = .active) (hcp : codePointTooLarge cp = false)
      (hroom : counterOverflows b.count 8 = true) : BuilderEffectOf b (.bbChar cp) { bb := { b with st := .ovfErr } }
  | char {cp : CodePoint} (hst : b.st = .active) (hcp : codePointTooLarge cp = false)
      (hroom : counterOverflows b.count 8 = false) :
      BuilderEffectOf b (.bbChar cp)
        { bb := { b with out := b.out ++ bits8 cp.toNat, count := counterAdd b.count 8 }, bits := bits8 cp.toNat }
  | endOverflow (hst : b.st = .active) (hroom : counterOverflows b.count 16 = true) :
      BuilderEffectOf b .bbEnd { bb := { b with st := .ovfErr } }
  | ended (hst : b.st = .active) (hroom : counterOverflows b.count 16 = false) :
      BuilderEffectOf b .bbEnd
        { bb := { st := .done, out := b.out ++ Config.marker, count := counterAdd b.count 16 }, bits := Config.marker }

theorem codePointTooLarge_eq_false {cp : CodePoint} : codePointTooLarge cp = false ↔ cp.toNat ≤ 255 := by
  simp [codePointTooLarge, Config.maxCodePoint]

theorem counterOverflows_eq_false {c : Counter} {n : Nat} : counterOverflows c n = false ↔ c.toNat + n < 2 ^ 32 := by
  rw [counterOverflows, Config.counterMax, decide_eq_false_iff_not]; omega

/-- A data command to a builder without an open session sets ERR_SEQB only (R91). -/
theorem exec_bbData_stray {i : Instr} {s : State} (hi : isBb i = true) (hne : i ≠ .bbStart)
    (hst : s.bb.st = .idle ∨ s.bb.st = .done) : exec i s = .next (recordError .sequenceB s) := by
  cases i with
  | bbChar cp => rcases hst with h | h <;> simp [exec, execBbChar, h]
  | bbEnd => rcases hst with h | h <;> simp [exec, execBbEnd, h]
  | bbStart => exact absurd rfl hne
  | _ => cases hi

/-- A data command to a builder whose session failed is ignored (R91). -/
theorem exec_bbData_ignored {i : Instr} {s : State} (hi : isBb i = true) (hne : i ≠ .bbStart)
    (hst : s.bb.st = .encErr ∨ s.bb.st = .ovfErr) : exec i s = .next s := by
  cases i with
  | bbChar cp => rcases hst with h | h <;> simp [exec, execBbChar, h]
  | bbEnd => rcases hst with h | h <;> simp [exec, execBbEnd, h]
  | bbStart => exact absurd rfl hne
  | _ => cases hi

/-- BB_CHAR in an open session (R72). -/
theorem exec_bbChar_active (cp : CodePoint) {b : Builder} (hst : b.st = .active) :
    ∃ f, BuilderEffectOf b (.bbChar cp) f ∧ ∀ s, s.bb = b → exec (.bbChar cp) s = .next (f.applyTo s) := by
  cases hcp : codePointTooLarge cp with
  | true =>
    refine ⟨_, .tooLarge hst hcp, ?_⟩
    rintro s rfl
    simp [exec, execBbChar, hst, hcp, BuilderEffect.applyTo_quiet, recordError]
  | false =>
    cases hroom : counterOverflows b.count 8 with
    | true =>
      refine ⟨_, .charOverflow hst hcp hroom, ?_⟩
      rintro s rfl
      simp [exec, execBbChar, hst, hcp, hroom, BuilderEffect.applyTo_quiet, recordError]
    | false =>
      refine ⟨_, .char hst hcp hroom, ?_⟩
      rintro s rfl
      simp [exec, execBbChar, hst, hcp, hroom, BuilderEffect.applyTo, emitBits, addBbCount]

/-- BB_END in an open session (R73). -/
theorem exec_bbEnd_active {b : Builder} (hst : b.st = .active) :
    ∃ f, BuilderEffectOf b .bbEnd f ∧ ∀ s, s.bb = b → exec .bbEnd s = .next (f.applyTo s) := by
  cases hroom : counterOverflows b.count 16 with
  | true =>
    refine ⟨_, .endOverflow hst hroom, ?_⟩
    rintro s rfl
    simp [exec, execBbEnd, hst, hroom, BuilderEffect.applyTo_quiet, recordError]
  | false =>
    refine ⟨_, .ended hst hroom, ?_⟩
    rintro s rfl
    simp [exec, execBbEnd, hst, hroom, BuilderEffect.applyTo, emitBits, addBbCount]

/-- A builder command has one effect in all the states that hold the same builder. -/
theorem exec_builder {i : Instr} (hi : isBb i = true) (b : Builder) :
    ∃ f, BuilderEffectOf b i f ∧ ∀ s, s.bb = b → exec i s = .next (f.applyTo s) := by
  by_cases hne : i = .bbStart
  · subst hne
    exact ⟨_, .opened, fun s _ => by simp [exec, execBbStart, BuilderEffect.applyTo_quiet]⟩
  by_cases hstray : b.st = .idle ∨ b.st = .done
  · refine ⟨_, .stray hi hne hstray, ?_⟩
    rintro s rfl
    rw [exec_bbData_stray hi hne hstray, BuilderEffect.applyTo_stray]
  by_cases hfailed : b.st = .encErr ∨ b.st = .ovfErr
  · refine ⟨_, .ignored hi hne hfailed, ?_⟩
    rintro s rfl
    rw [exec_bbData_ignored hi hne hfailed, BuilderEffect.applyTo_quiet]
  have hst : b.st = .active := by cases h : b.st <;> simp_all
  cases i with
  | bbChar cp => exact exec_bbChar_active cp hst
  | bbEnd => exact exec_bbEnd_active hst
  | bbStart => exact absurd rfl hne
  | _ => cases hi

theorem messageBits_snoc (m : List Nat) (c : Nat) : messageBits (m ++ [c]) = messageBits m ++ bits8 c := by
  simp [messageBits]

theorem build_ok {m : List Nat} (h : ∀ c ∈ m, c ≤ 255) : build m = .ok (messageBits m ++ Config.marker) := by
  simpa [build, Config.maxCodePoint] using h

namespace BuilderEffectOf

variable {b : Builder} {i : Instr} {f : BuilderEffect}

/-- A command that sets ERR_SEQB leaves the builder and emits nothing (R92). -/
theorem frame_of_stray (h : BuilderEffectOf b i f) (hs : f.stray = true) : f.bb = b ∧ f.bits = [] := by
  cases h with
  | stray => exact ⟨rfl, rfl⟩
  | _ => cases hs

/-- BB_OUT stays the last of what was emitted: it grows by the bits emitted, or is emptied. -/
theorem out_suffix (h : BuilderEffectOf b i f) : f.bb.out <:+ b.out ++ f.bits := by
  cases h with
  | opened => exact List.nil_suffix
  | char => exact List.suffix_rfl
  | ended => exact List.suffix_rfl
  | _ => rw [List.append_nil]

/-- The builder invariant survives every builder command: BB_CHAR adds its character to the message (R18, R19). -/
theorem keeps_inv (h : BuilderEffectOf b i f) (hinv : BuilderInv b) : BuilderInv f.bb := by
  obtain ⟨hcount, hsession⟩ := hinv
  cases h with
  | opened => exact ⟨rfl, [], by simp, rfl⟩
  | stray | ignored => exact ⟨hcount, hsession⟩
  | tooLarge hst | charOverflow hst | endOverflow hst =>
    rw [hst] at hsession
    exact ⟨hcount, hsession⟩
  | @char cp hst hcp hroom =>
    rw [hst] at hsession
    obtain ⟨m, hm, hout⟩ := hsession
    refine ⟨?_, ?_⟩
    · rw [counterAdd_toNat (counterOverflows_eq_false.mp hroom), hcount, List.length_append, bits8_length]
    · simp only [hst]
      refine ⟨m ++ [cp.toNat], ?_, by rw [hout, messageBits_snoc]⟩
      intro c hc
      rcases List.mem_append.mp hc with hc | hc
      · exact hm c hc
      · rw [List.mem_singleton.mp hc]
        exact codePointTooLarge_eq_false.mp hcp
  | ended hst hroom =>
    rw [hst] at hsession
    obtain ⟨m, hm, hout⟩ := hsession
    refine ⟨?_, m, hm, by rw [hout, build_ok hm]⟩
    rw [counterAdd_toNat (counterOverflows_eq_false.mp hroom), hcount, List.length_append]
    rfl

end BuilderEffectOf

end Sys2Proof.Machine
end

section
/-! SUPPORT. What an extractor command does, stated once over the extractor alone (spec/10_state.md R28; spec/42_extractor.md
R79, R80). -/

namespace Sys2Proof.Machine

/-! ### One channel value -/

/-- What the body of EX_PIX's loop leaves of an extractor and emits for one channel value (R80). -/
inductive CollectEffect (v : Byte) (e : Extractor) : Extractor → List Byte → Prop
  | marked (hm : e.mark = true) : CollectEffect v e e []
  | pending (hm : e.mark = false) (hnb : e.nb.val ≠ 7) :
      CollectEffect v e { e with sr := shiftIn e.sr v, nb := e.nb + 1 } []
  | marker (hm : e.mark = false) (hnb : e.nb.val = 7) (hb : shiftIn e.sr v = Config.markByte) :
      CollectEffect v e { e with mark := true, sr := 0#8, nb := 0 } []
  | byte (hm : e.mark = false) (hnb : e.nb.val = 7) (hb : shiftIn e.sr v ≠ Config.markByte) :
      CollectEffect v e
        { e with out := e.out ++ [shiftIn e.sr v], count := counterAdd e.count 1, sr := 0#8, nb := 0 }
        [shiftIn e.sr v]

/-- The extractor replaced, and bytes on CHAR_OUT. -/
def withExtractor (e : Extractor) (bytes : List Byte) (s : State) : State :=
  { s with ex := e, portLog := s.portLog ++ bytes.map PortEvent.char }

/-- Collecting a channel value reads and writes the extractor only. -/
theorem collectBit_effect (v : Byte) (e : Extractor) :
    ∃ e' bytes, CollectEffect v e e' bytes ∧ ∀ s, s.ex = e → collectBit v s = withExtractor e' bytes s := by
  cases hm : e.mark with
  | true =>
    refine ⟨_, _, .marked hm, ?_⟩
    rintro s rfl
    rw [collectBit_mark v s hm]
    simp [withExtractor]
  | false =>
    by_cases hnb : e.nb.val = 7
    · by_cases hb : shiftIn e.sr v = Config.markByte
      · refine ⟨_, _, .marker hm hnb hb, ?_⟩
        rintro s rfl
        rw [collectBit_eighth v s hm hnb]
        simp [withExtractor, completeGroup, hb]
      · refine ⟨_, _, .byte hm hnb hb, ?_⟩
        rintro s rfl
        rw [collectBit_eighth v s hm hnb]
        simp [withExtractor, completeGroup, hb, emitChar, addExCount]
    · refine ⟨_, _, .pending hm hnb, ?_⟩
      rintro s rfl
      rw [collectBit_pending v s hm hnb]
      simp [withExtractor]

/-- What holds of an open extractor after n channel values of its session: ExtractorInv between two channels of a pixel, with
the channel count in the place of three times EX_PIXCNT (R22 to R25). -/
structure CollectingInv (n : Nat) (e : Extractor) : Prop where
  count : e.count.toNat = e.out.length
  unmarked_out : Config.markByte ∉ e.out
  sr_lt : e.sr.toNat < 2 ^ e.nb.val
  cleared : e.mark = true → e.sr = 0#8 ∧ e.nb = 0
  before : e.mark = false → 8 * e.out.length + e.nb.val = n
  after : e.mark = true → 8 * (e.out.length + 1) ≤ n

namespace CollectEffect

variable {v : Byte} {e e' : Extractor} {bytes : List Byte}

theorem out (h : CollectEffect v e e' bytes) : e'.out = e.out ++ bytes := by
  cases h <;> simp

theorem frame (h : CollectEffect v e e' bytes) : e'.st = e.st ∧ e'.w = e.w ∧ e'.h = e.h ∧ e'.pixcnt = e.pixcnt := by
  cases h <;> exact ⟨rfl, rfl, rfl, rfl⟩

/-- After the marker a channel value changes nothing (R24). -/
theorem eq_of_mark (h : CollectEffect v e e' bytes) (hm : e.mark = true) : e' = e := by
  cases h with
  | marked => rfl
  | pending hf | marker hf | byte hf => simp [hm] at hf

/-- A channel value is one more of the session's (R25, R80); below 2^34 of them EX_COUNT cannot wrap. -/
theorem keeps_collecting {n : Nat} (h : CollectEffect v e e' bytes) (hn : n < 2 ^ 34) (hinv : CollectingInv n e) :
    CollectingInv (n + 1) e' := by
  obtain ⟨hcount, hout, hsr, hclear, hbefore, hafter⟩ := hinv
  cases h with
  | marked hm => exact ⟨hcount, hout, hsr, hclear, by simp [hm], fun _ => by have := hafter hm; omega⟩
  | pending hm hnb =>
    have hsr' := collectBit_sr v { State.reset with ex := e } hsr
    rw [collectBit_pending _ _ hm hnb] at hsr'
    refine ⟨hcount, hout, hsr', by simp [hm], fun _ => ?_, by simp [hm]⟩
    have := hbefore hm
    show 8 * e.out.length + (e.nb + 1).val = n + 1
    rw [Fin8_add_one (by omega)]
    omega
  | marker hm hnb =>
    have := hbefore hm
    exact ⟨hcount, hout, by simp, by simp, by simp, fun _ => by show 8 * (e.out.length + 1) ≤ n + 1; omega⟩
  | byte hm hnb hb =>
    have := hbefore hm
    refine ⟨?_, ?_, by simp, by simp [hm], fun _ => ?_, by simp [hm]⟩
    · simp [counterAdd_toNat (c := e.count) (n := 1) (by omega), hcount]
    · simp [hout, Ne.symm hb]
    · simp; omega

end CollectEffect

/-! ### A whole command -/

/-- What an extractor command leaves and emits: the extractor after it, whether it sets ERR_SEQX, the bytes on CHAR_OUT. -/
structure ExtractorEffect where
  ex : Extractor
  stray : Bit := false
  bytes : List Byte := []

/-- The effect carried out in a state: only the extractor, ERR_SEQX and the record of the ports are written. -/
def ExtractorEffect.applyTo (f : ExtractorEffect) (s : State) : State :=
  { s with ex := f.ex, err.seqx := s.err.seqx || f.stray, portLog := s.portLog ++ f.bytes.map PortEvent.char }

namespace ExtractorEffect

variable (f : ExtractorEffect) (s : State)

@[simp] theorem applyTo_bb : (f.applyTo s).bb = s.bb := rfl
@[simp] theorem applyTo_ex : (f.applyTo s).ex = f.ex := rfl
@[simp] theorem applyTo_err : (f.applyTo s).err = { s.err with seqx := s.err.seqx || f.stray } := rfl
@[simp] theorem applyTo_hostIn : (f.applyTo s).hostIn = s.hostIn := rfl
@[simp] theorem applyTo_portLog : (f.applyTo s).portLog = s.portLog ++ f.bytes.map PortEvent.char := rfl

theorem applyTo_no_stray (e : Extractor) (bytes : List Byte) :
    applyTo { ex := e, bytes := bytes } s = withExtractor e bytes s := by
  simp [applyTo, withExtractor]

theorem applyTo_stray : applyTo { ex := s.ex, stray := true } s = recordError .sequenceX s := by
  simp [applyTo, recordError]

end ExtractorEffect

/-- The extractor once its pixel's bits are collected: the pixel is counted, and the grid's last pixel ends the session
(R22, R80). -/
def closePixel (e : Extractor) : Extractor :=
  if (counterAdd e.pixcnt 1).toNat = e.w.toNat * e.h.toNat then
    { e with pixcnt := counterAdd e.pixcnt 1, st := .done, sr := 0#8, nb := 0 }
  else { e with pixcnt := counterAdd e.pixcnt 1 }

theorem closeGrid_countPixel (s : State) : closeGrid (countPixel s) = { s with ex := closePixel s.ex } := by
  by_cases h : (counterAdd s.ex.pixcnt 1).toNat = s.ex.w.toNat * s.ex.h.toNat <;>
    simp [closeGrid, gridConsumed, closePixel, countPixel, h]

/-- The effect of each extractor command on an extractor e, with the checks that lead to it (R79, R80). -/
inductive ExtractorEffectOf (e : Extractor) : Instr → ExtractorEffect → Prop
  | opened {mode : ImageMode} {w h : Dim} (hok : gridRejected mode w h = false) :
      ExtractorEffectOf e (.exStart mode w h) { ex := { Extractor.reset with st := .active, w := w, h := h } }
  | rejected {mode : ImageMode} {w h : Dim} (hbad : gridRejected mode w h = true) :
      ExtractorEffectOf e (.exStart mode w h) { ex := { Extractor.reset with st := .fmtErr, w := w, h := h } }
  | stray {r g b : Byte} (hst : e.st = .idle ∨ e.st = .done) :
      ExtractorEffectOf e (.exPix r g b) { ex := e, stray := true }
  | ignored {r g b : Byte} (hst : e.st = .fmtErr) : ExtractorEffectOf e (.exPix r g b) { ex := e }
  | pixel {r g b : Byte} {e₁ e₂ e₃ : Extractor} {l₁ l₂ l₃ : List Byte} (hst : e.st = .active)
      (hr : CollectEffect r e e₁ l₁) (hg : CollectEffect g e₁ e₂ l₂) (hb : CollectEffect b e₂ e₃ l₃) :
      ExtractorEffectOf e (.exPix r g b) { ex := closePixel e₃, bytes := l₁ ++ l₂ ++ l₃ }

theorem grid_pos_of_not_rejected {mode : ImageMode} {w h : Dim} (hok : gridRejected mode w h = false) :
    0 < w.toNat * h.toNat := by
  have hpos : ∀ d : Dim, d ≠ 0#16 → 0 < d.toNat := fun d hd => Nat.pos_of_ne_zero fun h0 => hd (BitVec.eq_of_toNat_eq h0)
  obtain ⟨⟨-, hw⟩, hh⟩ : (mode = Config.rgbMode ∧ w ≠ 0#16) ∧ h ≠ 0#16 := by simpa [gridRejected] using hok
  exact Nat.mul_pos (hpos w hw) (hpos h hh)

/-- EX_PIX in an open session: three channels, then the pixel is closed (R80). -/
theorem exec_exPix_active (r g b : Byte) {e : Extractor} (hst : e.st = .active) :
    ∃ f, ExtractorEffectOf e (.exPix r g b) f ∧ ∀ s, s.ex = e → exec (.exPix r g b) s = .next (f.applyTo s) := by
  obtain ⟨e₁, l₁, hr, hr'⟩ := collectBit_effect r e
  obtain ⟨e₂, l₂, hg, hg'⟩ := collectBit_effect g e₁
  obtain ⟨e₃, l₃, hb, hb'⟩ := collectBit_effect b e₂
  refine ⟨_, .pixel hst hr hg hb, ?_⟩
  rintro s rfl
  have hexec : exec (.exPix r g b) s = .next (closeGrid (countPixel (collectBit b (collectBit g (collectBit r s))))) := by
    simp [exec, execExPix, hst]
  rw [hexec, closeGrid_countPixel, hr' s rfl, hg' _ rfl, hb' _ rfl, ExtractorEffect.applyTo_no_stray]
  simp [withExtractor]

/-- An extractor command has one effect in all the states that hold the same extractor. -/
theorem exec_extractor {i : Instr} (hi : isEx i = true) (e : Extractor) :
    ∃ f, ExtractorEffectOf e i f ∧ ∀ s, s.ex = e → exec i s = .next (f.applyTo s) := by
  cases i with
  | exStart mode w h =>
    cases hgrid : gridRejected mode w h with
    | false =>
      refine ⟨_, .opened hgrid, fun s _ => ?_⟩
      simp [exec, execExStart, hgrid, ExtractorEffect.applyTo, openGrid, Extractor.reset]
    | true =>
      refine ⟨_, .rejected hgrid, fun s _ => ?_⟩
      simp [exec, execExStart, hgrid, ExtractorEffect.applyTo, openGrid, recordError, Extractor.reset]
  | exPix r g b =>
    cases hst : e.st with
    | active => exact exec_exPix_active r g b hst
    | idle =>
      refine ⟨_, .stray (.inl hst), ?_⟩
      rintro s rfl
      simp [exec, execExPix, hst, ExtractorEffect.applyTo_stray]
    | done =>
      refine ⟨_, .stray (.inr hst), ?_⟩
      rintro s rfl
      simp [exec, execExPix, hst, ExtractorEffect.applyTo_stray]
    | fmtErr =>
      refine ⟨_, .ignored hst, ?_⟩
      rintro s rfl
      simp [exec, execExPix, hst, ExtractorEffect.applyTo]
  | _ => cases hi

/-! ### Counting the pixel -/

/-- The greatest grid of R22. -/
theorem grid_le (w h : Dim) : w.toNat * h.toNat ≤ 4294836225 :=
  Nat.mul_le_mul (show w.toNat ≤ 65535 by omega) (show h.toNat ≤ 65535 by omega)

/-- What counting the pixel leaves unchanged. -/
theorem closePixel_frame (e : Extractor) :
    (closePixel e).w = e.w ∧ (closePixel e).h = e.h ∧ (closePixel e).out = e.out ∧ (closePixel e).count = e.count ∧
      (closePixel e).mark = e.mark := by
  unfold closePixel
  split <;> exact ⟨rfl, rfl, rfl, rfl, rfl⟩

/-- The grid's last pixel makes DONE of an open session, any other pixel leaves it open (R20, R22). -/
theorem closePixel_inv {e : Extractor} (hst : e.st = .active) (hpix : e.pixcnt.toNat < e.w.toNat * e.h.toNat)
    (hinv : CollectingInv (3 * (e.pixcnt.toNat + 1)) e) : ExtractorInv (closePixel e) := by
  obtain ⟨hcount, hout, hsr, hclear, hbefore, hafter⟩ := hinv
  have hgrid := grid_le e.w e.h
  have hadd : (counterAdd e.pixcnt 1).toNat = e.pixcnt.toNat + 1 := counterAdd_toNat (by omega)
  unfold closePixel
  split
  · next hlast =>
    refine ⟨hcount, hout, by simp, by simp, ?_⟩
    simp only [hadd] at hlast ⊢
    exact ⟨by omega, hlast, trivial, trivial, fun hm => by have := hbefore hm; omega, hafter⟩
  · next hmore =>
    refine ⟨hcount, hout, hsr, hclear, ?_⟩
    simp only [hst, hadd] at hmore ⊢
    exact ⟨by omega, hbefore, hafter⟩

/-- What the three channels of a pixel leave unchanged. -/
theorem collected_frame {r g b : Byte} {e e₁ e₂ e₃ : Extractor} {l₁ l₂ l₃ : List Byte} (hr : CollectEffect r e e₁ l₁)
    (hg : CollectEffect g e₁ e₂ l₂) (hb : CollectEffect b e₂ e₃ l₃) :
    e₃.st = e.st ∧ e₃.w = e.w ∧ e₃.h = e.h ∧ e₃.pixcnt = e.pixcnt := by
  obtain ⟨hst₁, hw₁, hh₁, hp₁⟩ := hr.frame
  obtain ⟨hst₂, hw₂, hh₂, hp₂⟩ := hg.frame
  obtain ⟨hst₃, hw₃, hh₃, hp₃⟩ := hb.frame
  exact ⟨by rw [hst₃, hst₂, hst₁], by rw [hw₃, hw₂, hw₁], by rw [hh₃, hh₂, hh₁], by rw [hp₃, hp₂, hp₁]⟩

namespace ExtractorEffectOf

variable {e : Extractor} {i : Instr} {f : ExtractorEffect}

/-- A command that sets ERR_SEQX leaves the extractor and emits nothing (R92). -/
theorem frame_of_stray (h : ExtractorEffectOf e i f) (hs : f.stray = true) : f.ex = e ∧ f.bytes = [] := by
  cases h with
  | stray => exact ⟨rfl, rfl⟩
  | _ => cases hs

/-- EX_OUT stays the last of what was emitted: it grows by the bytes emitted, or is emptied. -/
theorem out_suffix (h : ExtractorEffectOf e i f) : f.ex.out <:+ e.out ++ f.bytes := by
  cases h with
  | opened | rejected => exact List.nil_suffix
  | stray | ignored => rw [List.append_nil]
  | @pixel _ _ _ _ _ e₃ _ _ _ _ hr hg hb =>
    obtain ⟨-, -, hout, -, -⟩ := closePixel_frame e₃
    rw [hout, hb.out, hg.out, hr.out]
    simp

/-- No command but EX_START writes the dimensions (R21). -/
theorem keeps_dims (h : ExtractorEffectOf e i f) (hi : ∀ m w h, i ≠ .exStart m w h) : f.ex.w = e.w ∧ f.ex.h = e.h := by
  cases h with
  | opened | rejected => exact absurd rfl (hi _ _ _)
  | stray | ignored => exact ⟨rfl, rfl⟩
  | @pixel _ _ _ _ _ e₃ _ _ _ _ hr hg hb =>
    obtain ⟨-, hw, hh, -⟩ := collected_frame hr hg hb
    obtain ⟨hw', hh', -⟩ := closePixel_frame e₃
    exact ⟨hw'.trans hw, hh'.trans hh⟩

/-- From the marker on, no command but EX_START changes the session's output (R24). -/
theorem keeps_marked_output (h : ExtractorEffectOf e i f) (hi : ∀ m w h, i ≠ .exStart m w h) (hm : e.mark = true) :
    f.ex.mark = true ∧ f.ex.out = e.out ∧ f.ex.count = e.count := by
  cases h with
  | opened | rejected => exact absurd rfl (hi _ _ _)
  | stray | ignored => exact ⟨hm, rfl, rfl⟩
  | @pixel _ _ _ _ _ e₃ _ _ _ _ hr hg hb =>
    obtain rfl := hr.eq_of_mark hm
    obtain rfl := hg.eq_of_mark hm
    obtain rfl := hb.eq_of_mark hm
    obtain ⟨-, -, hout, hcount, hmark⟩ := closePixel_frame e₃
    exact ⟨hmark.trans hm, hout, hcount⟩

/-- The extractor invariant survives every extractor command (R20, R22 to R25). -/
theorem keeps_inv (h : ExtractorEffectOf e i f) (hinv : ExtractorInv e) : ExtractorInv f.ex := by
  cases h with
  | opened hok => simpa [ExtractorInv, Extractor.reset] using grid_pos_of_not_rejected hok
  | rejected => simp [ExtractorInv, Extractor.reset]
  | stray | ignored => exact hinv
  | @pixel _ _ _ e₁ e₂ e₃ _ _ _ hst hr hg hb =>
    obtain ⟨hcount, hout, hsr, hclear, hsession⟩ := hinv
    rw [hst] at hsession
    obtain ⟨hpix, hbefore, hafter⟩ := hsession
    have hgrid := grid_le e.w e.h
    have h₀ : CollectingInv (3 * e.pixcnt.toNat) e := ⟨hcount, hout, hsr, hclear, hbefore, hafter⟩
    have h₃ := hb.keeps_collecting (by omega) (hg.keeps_collecting (by omega) (hr.keeps_collecting (by omega) h₀))
    obtain ⟨hst', hw, hh, hp⟩ := collected_frame hr hg hb
    exact closePixel_inv (hst'.trans hst) (by rw [hw, hh, hp]; exact hpix) (by rw [hp]; exact h₃)

end ExtractorEffectOf

end Sys2Proof.Machine
end

section
/-! SUPPORT. A word and the command it encodes, and everything one step can do in the terms of the units' effects
(spec/30_encoding.md R59; spec/10_state.md R10, R28). -/

namespace Sys2Proof.Machine

/-! ### A command and its word -/

/-- A command is read back from its word (R59, R60). -/
theorem decode_encode (i : Instr) : decode (encode i) = .ok i := by
  cases i with
  | nop | bbStart | bbEnd | errClr => decide
  | bbChar cp => simp [decode, checkRsv, rsvClear, Instr.opcode]
  | exStart mode w h => simp [decode, checkRsv, rsvClear, Instr.opcode]
  | exPix r g b => simp [decode, checkRsv, rsvClear, Instr.opcode]

/-- A word is the encoding of a command when its opcode and what stands below it are the command's. -/
theorem encode_eq_of_parts {w : CmdWord} {i : Instr} (ho : fieldOpc w = i.opcode) (hp : w.extractLsb' 0 56 = i.payload) :
    encode i = w := by
  rw [word_split w, encode, ho, hp]

theorem payload_bbChar (w : CmdWord) : w.extractLsb' 0 56 = fieldRsvC w ++ fieldCp w :=
  extract_split w 0 24 32

theorem payload_exStart (w : CmdWord) : w.extractLsb' 0 56 = fieldRsvS w ++ fieldMode w ++ fieldW w ++ fieldH w := by
  rw [extract_split w 0 40 16, extract_split w 16 24 16, extract_split w 32 22 2]
  rfl

theorem payload_exPix (w : CmdWord) : w.extractLsb' 0 56 = fieldRsvP w ++ fieldR w ++ fieldG w ++ fieldB w := by
  rw [extract_split w 0 48 8, extract_split w 8 40 8, extract_split w 16 32 8]
  rfl

/-- No two words are one command (R59). -/
theorem encode_of_decode {w : CmdWord} {i : Instr} (h : decode w = .ok i) : encode i = w := by
  obtain ⟨ho, hr, rfl⟩ | ⟨ho, hr, rfl⟩ | ⟨ho, hr, rfl⟩ | ⟨ho, hr, rfl⟩ | ⟨ho, hr, rfl⟩ | ⟨ho, hr, rfl⟩ | ⟨ho, hr, rfl⟩ :=
    decode_cases h
  case inr.inr.inl => exact encode_eq_of_parts ho (by rw [payload_bbChar, hr]; rfl)
  case inr.inr.inr.inr.inl => exact encode_eq_of_parts ho (by rw [payload_exStart, hr]; rfl)
  case inr.inr.inr.inr.inr.inl => exact encode_eq_of_parts ho (by rw [payload_exPix, hr]; rfl)
  all_goals exact encode_eq_of_parts ho hr

/-! ### One step -/

/-- A command is a builder's, an extractor's, NOP or ERR_CLR. -/
theorem unit_cases (i : Instr) : isBb i = true ∨ isEx i = true ∨ i = .nop ∨ i = .errClr := by
  cases i <;> simp [isBb, isEx]

theorem not_isEx_of_isBb {i : Instr} (hi : isBb i = true) : ¬ isEx i = true := by
  cases i <;> simp [isBb, isEx] at hi ⊢

/-- What one step leaves of a state whose next input has been taken, by what that input was. -/
inductive StepEffect (s : State) : Option HostInput → State → Prop
  | waiting : StepEffect s none s
  | nop : StepEffect s (some (.cmd (encode .nop))) s
  | errClr : StepEffect s (some (.cmd (encode .errClr))) (clearErrors s)
  | builder {i : Instr} {f : BuilderEffect} (h : BuilderEffectOf s.bb i f) :
      StepEffect s (some (.cmd (encode i))) (f.applyTo s)
  | extractor {i : Instr} {f : ExtractorEffect} (h : ExtractorEffectOf s.ex i f) :
      StepEffect s (some (.cmd (encode i))) (f.applyTo s)
  | illegal {w : CmdWord} {e : IllegalWord} (hw : decode w = .error e) :
      StepEffect s (some (.cmd w)) (recordError .illegal s)
  | reset : StepEffect s (some .reset) (takeReset s)
  | readStat (idx : StatIndex) : StepEffect s (some (.readStat idx)) (readStat idx s)

theorem exec_effect {i : Instr} {s t : State} (h : exec i s = .next t) : StepEffect s (some (.cmd (encode i))) t := by
  rcases unit_cases i with hi | hi | rfl | rfl
  · obtain ⟨f, hf, hexec⟩ := exec_builder hi s.bb
    obtain rfl : f.applyTo s = t := by simpa [hexec s rfl] using h
    exact .builder hf
  · obtain ⟨f, hf, hexec⟩ := exec_extractor hi s.ex
    obtain rfl : f.applyTo s = t := by simpa [hexec s rfl] using h
    exact .extractor hf
  · obtain rfl : s = t := by simpa [exec, execNop] using h
    exact .nop
  · obtain rfl : clearErrors s = t := by simpa [exec, execErrClr] using h
    exact .errClr

/-- Every step is one of the effects. -/
theorem step_effect {s t : State} (h : step s = .next t) :
    StepEffect { s with hostIn := s.hostIn.tail } s.hostIn.head? t := by
  obtain ⟨hin, rfl⟩ | ⟨w, rest, i, hin, hw, hexec⟩ | ⟨w, rest, e, hin, hw, rfl⟩ | ⟨rest, hin, rfl⟩ | ⟨idx, rest, hin, rfl⟩ :=
    step_cases h
  · have hwait : { t with hostIn := t.hostIn.tail } = t := State.eq_of_parts rfl rfl rfl (by simp [hin]) rfl
    rw [hwait, hin]
    exact .waiting
  · rw [hin, ← encode_of_decode hw]
    exact exec_effect hexec
  · rw [hin]
    exact .illegal hw
  · rw [hin]
    exact .reset
  · rw [hin]
    exact .readStat idx

theorem builderInv_reset : BuilderInv Builder.reset := ⟨rfl, rfl⟩

theorem extractorInv_reset : ExtractorInv Extractor.reset := ⟨rfl, List.not_mem_nil, by decide, by decide, rfl⟩

theorem portBits_chars (l : List Byte) : portBits (l.map PortEvent.char) = [] := by
  simp [portBits]

theorem portChars_chars (l : List Byte) : portChars (l.map PortEvent.char) = l := by
  simp [portChars]

/-- Some flag is 0 before and 1 after. -/
def FlagRaised (s t : State) : Prop :=
  (s.err.ill = false ∧ t.err.ill = true) ∨ (s.err.seqb = false ∧ t.err.seqb = true) ∨
    (s.err.seqx = false ∧ t.err.seqx = true)

namespace StepEffect

variable {s t : State} {x : Option HostInput}

theorem keeps_builderInv (h : StepEffect s x t) (hinv : BuilderInv s.bb) : BuilderInv t.bb := by
  cases h with
  | builder hf => exact hf.keeps_inv hinv
  | reset => exact builderInv_reset
  | _ => exact hinv

theorem keeps_extractorInv (h : StepEffect s x t) (hinv : ExtractorInv s.ex) : ExtractorInv t.ex := by
  cases h with
  | extractor hf => exact hf.keeps_inv hinv
  | reset => exact extractorInv_reset
  | _ => exact hinv

theorem keeps_recordInv (h : StepEffect s x t) (hinv : RecordInv s) : RecordInv t := by
  obtain ⟨hbits, hchars⟩ := hinv
  cases h with
  | waiting | nop | errClr | illegal => exact ⟨hbits, hchars⟩
  | builder hf =>
    refine ⟨?_, ?_⟩
    · rw [BuilderEffect.applyTo_portLog, portBits_append, portBits_bits]
      exact hf.out_suffix.trans (List.suffix_append_self_iff.mpr hbits)
    · rw [BuilderEffect.applyTo_portLog, portChars_append, portChars_bits, List.append_nil]
      exact hchars
  | extractor hf =>
    refine ⟨?_, ?_⟩
    · rw [ExtractorEffect.applyTo_portLog, portBits_append, portBits_chars, List.append_nil]
      exact hbits
    · rw [ExtractorEffect.applyTo_portLog, portChars_append, portChars_chars]
      exact hf.out_suffix.trans (List.suffix_append_self_iff.mpr hchars)
  | reset => exact ⟨List.nil_suffix, List.nil_suffix⟩
  | readStat idx =>
    refine ⟨?_, ?_⟩
    · rw [readStat_portLog, portBits_append]
      simpa [portBits] using hbits
    · rw [readStat_portLog, portChars_append]
      simpa [portChars] using hchars

theorem keeps_dims (h : StepEffect s x t) (hreset : x ≠ some .reset)
    (hstart : ∀ m w h, x ≠ some (.cmd (encode (.exStart m w h)))) : t.ex.w = s.ex.w ∧ t.ex.h = s.ex.h := by
  cases h with
  | extractor hf => exact hf.keeps_dims fun m w h hi => hstart m w h (by rw [hi])
  | reset => exact absurd rfl hreset
  | _ => exact ⟨rfl, rfl⟩

theorem keeps_marked_output (h : StepEffect s x t) (hm : s.ex.mark = true) (hreset : x ≠ some .reset)
    (hstart : ∀ m w h, x ≠ some (.cmd (encode (.exStart m w h)))) :
    t.ex.mark = true ∧ t.ex.out = s.ex.out ∧ t.ex.count = s.ex.count := by
  cases h with
  | extractor hf => exact hf.keeps_marked_output (fun m w h hi => hstart m w h (by rw [hi])) hm
  | reset => exact absurd rfl hreset
  | _ => exact ⟨hm, rfl, rfl⟩

/-- Only ERR_CLR and RESET clear a flag (R26). -/
theorem keeps_flags (h : StepEffect s x t) (hreset : x ≠ some .reset) (hclr : x ≠ some (.cmd (encode .errClr))) :
    (s.err.ill = true → t.err.ill = true) ∧ (s.err.seqb = true → t.err.seqb = true) ∧
      (s.err.seqx = true → t.err.seqx = true) := by
  cases h with
  | waiting | nop | readStat => exact ⟨id, id, id⟩
  | builder => exact ⟨id, fun hb => by simp [hb], id⟩
  | extractor => exact ⟨id, id, fun hx => by simp [hx]⟩
  | illegal => exact ⟨fun _ => rfl, id, id⟩
  | errClr => exact absurd rfl hclr
  | reset => exact absurd rfl hreset

/-- A step that sets a flag writes nothing else (R26, R92). -/
theorem frame_of_flagRaised (h : StepEffect s x t) (hf : FlagRaised s t) :
    t.bb = s.bb ∧ t.ex = s.ex ∧ t.portLog = s.portLog ∧
      (t.err = { s.err with ill := true } ∨ t.err = { s.err with seqb := true } ∨ t.err = { s.err with seqx := true }) := by
  cases h with
  | @builder i f h =>
    have hstray : f.stray = true := by
      cases hs : f.stray
      · simp [FlagRaised, hs] at hf
      · rfl
    obtain ⟨hb, hbits⟩ := h.frame_of_stray hstray
    exact ⟨hb, rfl, by simp [hbits], .inr (.inl (by simp [hstray]))⟩
  | @extractor i f h =>
    have hstray : f.stray = true := by
      cases hs : f.stray
      · simp [FlagRaised, hs] at hf
      · rfl
    obtain ⟨he, hbytes⟩ := h.frame_of_stray hstray
    exact ⟨rfl, he, by simp [hbytes], .inr (.inr (by simp [hstray]))⟩
  | illegal => exact ⟨rfl, rfl, rfl, .inl rfl⟩
  | waiting | nop | errClr | reset | readStat => simp [FlagRaised, ErrFlags.reset] at hf

end StepEffect

/-! ### Running command words -/

/-- A command reads neither the pending inputs nor the record of the ports (R10). -/
theorem exec_host_side (i : Instr) (s : State) :
    ∃ (t : State) (emitted : List PortEvent),
      exec i s = .next t ∧ t.portLog = s.portLog ++ emitted ∧ t.hostIn = s.hostIn ∧
      ∀ (hin : List HostInput) (log : List PortEvent),
        exec i { s with hostIn := hin, portLog := log } = .next { t with hostIn := hin, portLog := log ++ emitted } := by
  rcases unit_cases i with hi | hi | rfl | rfl
  · obtain ⟨f, -, hexec⟩ := exec_builder hi s.bb
    exact ⟨f.applyTo s, f.bits.map .bit, hexec s rfl, rfl, rfl, fun hin log => hexec _ rfl⟩
  · obtain ⟨f, -, hexec⟩ := exec_extractor hi s.ex
    exact ⟨f.applyTo s, f.bytes.map .char, hexec s rfl, rfl, rfl, fun hin log => hexec _ rfl⟩
  · exact ⟨s, [], rfl, by simp, rfl, fun hin log => by simp [exec, execNop]⟩
  · exact ⟨clearErrors s, [], rfl, by simp, rfl, fun hin log => by simp [exec, execErrClr, clearErrors]⟩

/-- A word that the host presents runs its command (R48, R60). -/
theorem step_of_decode {s : State} {w : CmdWord} {rest : List HostInput} {i : Instr} (hin : s.hostIn = .cmd w :: rest)
    (hw : decode w = .ok i) : step s = exec i { s with hostIn := rest } := by
  simp [step, takeNextInput, hin, performInput, performWord, hw]

/-- A run of command words performs its first command and goes on with the others. -/
theorem run_presentWords_cons {i : Instr} {s t : State} (cs : List Instr) (h : exec i s = .next t) :
    Sys2Proof.core.run (i :: cs).length (presentWords ((i :: cs).map encode) s) =
      Sys2Proof.core.run cs.length (presentWords (cs.map encode) t) := by
  obtain ⟨t', emitted, ht, hlog, hin, hexec⟩ := exec_host_side i s
  obtain rfl : t' = t := by simpa [ht] using h
  have hstep : step (presentWords ((i :: cs).map encode) s) = .next (presentWords (cs.map encode) t') := by
    rw [step_of_decode rfl (decode_encode i)]
    refine (hexec (presentWords (cs.map encode) s).hostIn s.portLog).trans ?_
    rw [presentWords_hostIn, ← hin, ← hlog]
    rfl
  exact run_of_step Sys2Proof.core hstep

/-- Running builder and extractor commands from s, those of the builder from u and those of the extractor from v, where u
holds the builder of s and v its extractor. -/
theorem run_interleaved (cs : List Instr) (hcs : ∀ i ∈ cs, isBb i = true ∨ isEx i = true) {s u v : State}
    (hbb : u.bb = s.bb) (hseqb : u.err.seqb = s.err.seqb) (hex : v.ex = s.ex) (hseqx : v.err.seqx = s.err.seqx) :
    ∃ t u' v' : State,
      Sys2Proof.core.run cs.length (presentWords (cs.map encode) s) = .next t ∧
      Sys2Proof.core.run (cs.filter isBb).length (presentWords ((cs.filter isBb).map encode) u) = .next u' ∧
      Sys2Proof.core.run (cs.filter isEx).length (presentWords ((cs.filter isEx).map encode) v) = .next v' ∧
      t.bb = u'.bb ∧ t.err.seqb = u'.err.seqb ∧ t.ex = v'.ex ∧ t.err.seqx = v'.err.seqx ∧
      t.err.ill = s.err.ill ∧ t.hostIn = s.hostIn := by
  induction cs generalizing s u v with
  | nil => exact ⟨s, u, v, rfl, rfl, rfl, hbb.symm, hseqb.symm, hex.symm, hseqx.symm, rfl, rfl⟩
  | cons i cs ih =>
    obtain ⟨hi, hcs⟩ := List.forall_mem_cons.mp hcs
    rcases hi with hi | hi
    · have hi' : ¬ isEx i = true := not_isEx_of_isBb hi
      obtain ⟨f, -, hexec⟩ := exec_builder hi s.bb
      rw [run_presentWords_cons cs (hexec s rfl), List.filter_cons_of_pos hi, run_presentWords_cons _ (hexec u hbb),
        List.filter_cons_of_neg hi']
      exact ih hcs (s := f.applyTo s) (u := f.applyTo u) rfl (by simp [hseqb]) hex hseqx
    · have hi' : ¬ isBb i = true := fun hb => not_isEx_of_isBb hb hi
      obtain ⟨f, -, hexec⟩ := exec_extractor hi s.ex
      rw [run_presentWords_cons cs (hexec s rfl), List.filter_cons_of_pos hi, run_presentWords_cons _ (hexec v hex),
        List.filter_cons_of_neg hi']
      exact ih hcs (s := f.applyTo s) (v := f.applyTo v) hbb hseqb rfl (by simp [hseqx])

end Sys2Proof.Machine
end

section
/-! SUPPORT. The status registers as sums of their fields, and the bounds of the extractor's counters (spec/10_state.md R22,
R23, R30, R31). -/

namespace Sys2Proof.Machine

/-! ### The status registers -/

theorem append_toNat {m n : Nat} (x : BitVec m) (y : BitVec n) : (x ++ y).toNat = x.toNat * 2 ^ n + y.toNat := by
  rw [BitVec.toNat_append, ← Nat.shiftLeft_add_eq_or_of_lt y.isLt, Nat.shiftLeft_eq]

/-- STATUS as a sum of its fields (R30). -/
theorem statusWord_toNat (s : State) :
    (statusWord s).toNat = s.bb.st.code.toNat + 2 ^ 4 * s.ex.st.code.toNat + 2 ^ 6 * s.ex.mark.toNat
      + 2 ^ 8 * s.err.ill.toNat + 2 ^ 9 * s.err.seqb.toNat + 2 ^ 10 * s.err.seqx.toNat := by
  simp only [statusWord, append_toNat, BitVec.toNat_ofBool, BitVec.toNat_ofNat]
  omega

theorem stat_reset (idx : StatIndex) : stat State.reset idx = 0#32 := by
  revert idx; decide

/-- The bits of STATUS that no field holds are 0 (R30). -/
theorem statusWord_reserved (s : State) {k : Nat} (hk : k = 3 ∨ k = 7 ∨ 11 ≤ k) : (statusWord s).getLsbD k = false := by
  have hsum := statusWord_toNat s
  have hmark := Bool.toNat_le s.ex.mark
  have hill := Bool.toNat_le s.err.ill
  have hseqb := Bool.toNat_le s.err.seqb
  have hseqx := Bool.toNat_le s.err.seqx
  rcases hk with rfl | rfl | hk
  · rw [BitVec.getLsbD, Nat.testBit_eq_decide_div_mod_eq, decide_eq_false_iff_not]
    omega
  · rw [BitVec.getLsbD, Nat.testBit_eq_decide_div_mod_eq, decide_eq_false_iff_not]
    omega
  · have hlt : (statusWord s).toNat < 2 ^ 11 := by omega
    exact Nat.testBit_lt_two_pow (hlt.trans_le (Nat.pow_le_pow_right (by omega) hk))

/-- A reachable extractor has counted at most its grid, and has output whole groups of what it counted. -/
theorem ExtractorInv.counts {e : Extractor} (h : ExtractorInv e) :
    e.pixcnt.toNat ≤ e.w.toNat * e.h.toNat ∧ 8 * e.count.toNat ≤ 3 * e.pixcnt.toNat ∧
      (e.st = .active → e.pixcnt.toNat < e.w.toNat * e.h.toNat) := by
  obtain ⟨hcount, -, -, -, hsession⟩ := h
  rw [hcount]
  cases hst : e.st <;> simp only [hst] at hsession
  case idle => simp [hsession, Extractor.reset]
  case fmtErr => simp [hsession]
  case active =>
    obtain ⟨hpix, hbefore, hafter⟩ := hsession
    refine ⟨hpix.le, ?_, fun _ => hpix⟩
    cases hm : e.mark with
    | true => have := hafter hm; omega
    | false => have := hbefore hm; omega
  case done =>
    obtain ⟨-, hpix, -, -, hbefore, hafter⟩ := hsession
    refine ⟨hpix.le, ?_, fun h => by cases h⟩
    cases hm : e.mark with
    | true => have := hafter hm; omega
    | false => have := hbefore hm; omega

end Sys2Proof.Machine
end

section
/-! The statements about the state, settled (spec/10_state.md). -/

namespace Sys2Proof.Machine

/-- Settles O29: each effect a step can have keeps the builder invariant. -/
theorem stepKeepsTheBuilderInvariant : Obligations.StepKeepsTheBuilderInvariant :=
  fun _ _ hinv h => (step_effect h).keeps_builderInv hinv

/-- Settles O30: each effect a step can have keeps the extractor invariant. -/
theorem stepKeepsTheExtractorInvariant : Obligations.StepKeepsTheExtractorInvariant :=
  fun _ _ hinv h => (step_effect h).keeps_extractorInv hinv

/-- Settles O26: STATUS is the sum of its fields. -/
theorem statusFieldsStandAtTheirBits : Obligations.StatusFieldsStandAtTheirBits := by
  refine ⟨fun s => ?_, stat_reset 0⟩
  rw [show stat s 0 = statusWord s from rfl, statusWord_toNat]
  cases s.bb.st <;> cases s.ex.st <;> rfl

/-- Settles O27: each register is a view of the state. -/
theorem statRegistersReadTheState : Obligations.StatRegistersReadTheState :=
  fun s => ⟨rfl, rfl, rfl, append_toNat s.ex.w s.ex.h, rfl, rfl, rfl, fun _ hk => statusWord_reserved s hk, stat_reset⟩

/-- Settles O31: each effect emits what it appends to the unit's record. -/
theorem stepKeepsTheEmissionRecords : Obligations.StepKeepsTheEmissionRecords :=
  fun _ _ hinv h => (step_effect h).keeps_recordInv hinv

/-- Settles O32: the greatest grid bounds both counters, and a pixel of the grid lies in a row of it. -/
theorem extractorCountersStayInRange : Obligations.ExtractorCountersStayInRange := by
  intro e hinv
  obtain ⟨hpix, hcount, hactive⟩ := hinv.counts
  have hgrid := grid_le e.w e.h
  refine ⟨by omega, by omega, by omega, fun hst => ?_⟩
  have hlt := hactive hst
  have hw : 0 < e.w.toNat := Nat.pos_of_mul_pos_right (Nat.zero_lt_of_lt hlt)
  exact ⟨Nat.mod_lt _ hw, Nat.div_lt_of_lt_mul hlt⟩

/-- Settles O34: only ERR_CLR and RESET clear a flag, and an effect that sets one leaves its unit and emits nothing. -/
theorem errorFlagsAreSticky : Obligations.ErrorFlagsAreSticky :=
  ⟨fun _ _ h hreset hclr => (step_effect h).keeps_flags hreset hclr, fun _ _ h hf => (step_effect h).frame_of_flagRaised hf⟩

/-- Settles O36: EX_START latches its fields before its check, and no other effect writes them. -/
theorem dimensionsAreImmutableInASession : Obligations.DimensionsAreImmutableInASession := by
  refine ⟨fun m w h s => ?_, fun _ _ h hreset hstart => (step_effect h).keeps_dims hreset hstart⟩
  obtain ⟨f, hf, hexec⟩ := exec_extractor (i := .exStart m w h) rfl s.ex
  refine ⟨f.applyTo s, hexec s rfl, ?_⟩
  cases hf <;> exact ⟨rfl, rfl⟩

/-- Settles O37: with EX_MARK = 1 the channels of a pixel change nothing. -/
theorem markerMakesTheOutputFinal : Obligations.MarkerMakesTheOutputFinal :=
  fun _ _ hm h hreset hstart => (step_effect h).keeps_marked_output hm hreset hstart

/-- Settles O38: a command's effect is a function of its own unit and writes only that unit and its flag. -/
theorem commandsTouchOnlyTheirOwnUnit : Obligations.CommandsTouchOnlyTheirOwnUnit := by
  refine ⟨fun i s hi => ?_, fun i s hi => ?_⟩
  · obtain ⟨f, -, hexec⟩ := exec_builder hi s.bb
    exact ⟨f.applyTo s, hexec s rfl, rfl, rfl, rfl, rfl, fun _ => hexec _ rfl⟩
  · obtain ⟨f, -, hexec⟩ := exec_extractor hi s.ex
    exact ⟨f.applyTo s, hexec s rfl, rfl, rfl, rfl, rfl, fun _ => hexec _ rfl⟩

/-- Settles O39, by induction on the sequence of commands. -/
theorem interleavedUnitsAreIndependent : Obligations.InterleavedUnitsAreIndependent :=
  fun cs _ hcs => run_interleaved cs hcs rfl rfl rfl rfl

/-- Settles O40: an effect is a function of the units alone. -/
theorem commandsDoNotReadTheHostsSide : Obligations.CommandsDoNotReadTheHostsSide :=
  exec_host_side

/-- Settles O8: the next input is taken, then decoded. -/
theorem stepRunsTheDecodedCommand : Obligations.StepRunsTheDecodedCommand :=
  fun _ _ _ _ hin hw => step_of_decode hin hw

/-- Settles O12: with no input pending, taking the next input leaves the state. -/
theorem stepWaitsForTheHost : Obligations.StepWaitsForTheHost :=
  fun s hin => by simp [step, takeNextInput, hin]

/-- Settles O28: the reset units meet their invariants, and nothing has been emitted. -/
theorem resetMeetsTheInvariants : Obligations.ResetMeetsTheInvariants :=
  ⟨builderInv_reset, extractorInv_reset, List.suffix_rfl, List.suffix_rfl⟩

end Sys2Proof.Machine
end

section
/-! SUPPORT. What one pixel emits, what a STAT read leaves, and the groups of a bitstream (spec/20_memory.md R40, R43, R45). -/

namespace Sys2Proof.Machine

/-! ### One pixel's bytes -/

namespace CollectEffect

variable {v : Byte} {e e' : Extractor} {bytes : List Byte}

/-- A byte is paid for with eight bits of which a channel value brings one, whatever the state (R43, R80). -/
theorem bits_le (h : CollectEffect v e e' bytes) : 8 * bytes.length + e'.nb.val ≤ e.nb.val + 1 := by
  cases h with
  | marked => simp
  | pending hm hnb => simp [Fin8_add_one (n := e.nb) (by omega)]
  | marker => simp
  | byte hm hnb => simp [hnb]

/-- The marker byte is never emitted (R76). -/
theorem marker_not_mem (h : CollectEffect v e e' bytes) : Config.markByte ∉ bytes := by
  cases h with
  | byte hm hnb hb => simpa using Ne.symm hb
  | _ => exact List.not_mem_nil

end CollectEffect

namespace ExtractorEffectOf

variable {r g b : Byte} {e : Extractor} {f : ExtractorEffect}

/-- EX_PIX appends to EX_OUT exactly what it emits (R23). -/
theorem pixel_out (h : ExtractorEffectOf e (.exPix r g b) f) : f.ex.out = e.out ++ f.bytes := by
  cases h with
  | stray | ignored => exact (List.append_nil _).symm
  | @pixel _ _ _ _ _ e₃ _ _ _ _ hr hg hb =>
    obtain ⟨-, -, hout, -, -⟩ := closePixel_frame e₃
    rw [hout, hb.out, hg.out, hr.out]
    simp

/-- At most seven bits are pending and a pixel brings three, which is less than two groups (R43). -/
theorem pixel_bytes_length_le (h : ExtractorEffectOf e (.exPix r g b) f) : f.bytes.length ≤ 1 := by
  cases h with
  | stray | ignored => exact Nat.zero_le 1
  | pixel _ hr hg hb =>
    have hr := hr.bits_le
    have hg := hg.bits_le
    have hb := hb.bits_le
    have hnb := e.nb.isLt
    simp only [List.length_append]
    omega

theorem pixel_marker_not_mem (h : ExtractorEffectOf e (.exPix r g b) f) : Config.markByte ∉ f.bytes := by
  cases h with
  | stray | ignored => exact List.not_mem_nil
  | pixel _ hr hg hb => simp [hr.marker_not_mem, hg.marker_not_mem, hb.marker_not_mem]

end ExtractorEffectOf

/-! ### A STAT read -/

/-- A STAT read that the host presents is performed (R45, R48). -/
theorem step_of_readStat {s : State} {idx : StatIndex} {rest : List HostInput} (hin : s.hostIn = .readStat idx :: rest) :
    step s = .next (readStat idx { s with hostIn := rest }) := by
  simp [step, takeNextInput, hin, performInput]

/-- The registers are views of the fields of R12, not of the host's side of the ports (R29). -/
theorem stat_congr {s t : State} (hbb : t.bb = s.bb) (hex : t.ex = s.ex) (herr : t.err = s.err) (idx : StatIndex) :
    stat t idx = stat s idx := by
  simp only [stat, statusWord, dimWord, hbb, hex, herr]

/-! ### A bitstream's groups -/

/-- The bitstreams of build are the messages of code points up to 255, each with the marker (R70). -/
theorem build_eq_ok_iff {m : List Nat} {bits : List Bit} :
    build m = .ok bits ↔ (∀ c ∈ m, c ≤ 255) ∧ bits = messageBits m ++ Config.marker := by
  constructor
  · intro h
    by_cases hbig : m.any (fun c => decide (c > Config.maxCodePoint))
    · simp [build, hbig] at h
    · have hm : ∀ c ∈ m, c ≤ 255 := by simpa [Config.maxCodePoint] using hbig
      rw [build_ok hm] at h
      exact ⟨hm, (Except.ok.inj h).symm⟩
  · rintro ⟨hm, rfl⟩
    exact build_ok hm

/-- A bitstream's groups are its characters, then 0xFF and 0xFE (R36, R40). -/
theorem groups8_bitstream {m : List Nat} (hm : ∀ c ∈ m, c ≤ 255) :
    groups8 (messageBits m ++ Config.marker) = m.map (BitVec.ofNat 8) ++ [0xFF#8, 0xFE#8] :=
  groups8_messageBits hm Config.marker

end Sys2Proof.Machine
end

section
/-! The statements about memory and the ports, settled (spec/20_memory.md). -/

namespace Sys2Proof.Machine

/-- Settles O23: a pixel's bytes are a list of at most one, without the marker byte. -/
theorem pixelEmitsAtMostOneByte : Obligations.PixelEmitsAtMostOneByte := by
  intro r g b s
  obtain ⟨f, hf, hexec⟩ := exec_extractor (i := .exPix r g b) rfl s.ex
  have hout := hf.pixel_out
  have hmark := hf.pixel_marker_not_mem
  refine ⟨f.applyTo s, hexec s rfl, ?_⟩
  rw [ExtractorEffect.applyTo_ex, ExtractorEffect.applyTo_portLog]
  rcases Nat.le_one_iff_eq_zero_or_eq_one.mp hf.pixel_bytes_length_le with hnone | hone
  · left
    simp [hout, List.length_eq_zero_iff.mp hnone]
  · right
    obtain ⟨c, hc⟩ := List.length_eq_one_iff.mp hone
    rw [hc] at hout hmark ⊢
    exact ⟨c, (List.ne_of_not_mem_cons hmark).symm, hout, rfl⟩

/-- Settles O44: a bitstream is 8n bits and the marker, and its groups are the characters, 0xFF and 0xFE. -/
theorem bitstreamIsAlignedToGroups : Obligations.BitstreamIsAlignedToGroups := by
  intro m bits h
  obtain ⟨hm, rfl⟩ := build_eq_ok_iff.mp h
  have hlen := messageBits_length m
  rw [groups8_bitstream hm]
  refine ⟨?_, ?_, ?_, ?_, ?_⟩
  · rw [List.length_append, hlen]
    rfl
  · rw [← hlen, List.drop_left]
    rfl
  · simp
  · simp
  · simp

/-- Settles O11: the read is recorded on the ports, of which no register is a view. -/
theorem statReadChangesNoField : Obligations.StatReadChangesNoField :=
  fun _ _ _ hin => ⟨_, step_of_readStat hin, rfl, rfl, rfl, rfl, rfl, stat_congr rfl rfl rfl⟩

end Sys2Proof.Machine
end

section
/-! SUPPORT. What decode answers by the rows of the opcode table, and the words of the encoder as numbers
(spec/30_encoding.md R54 to R61). -/

namespace Sys2Proof.Machine

/-! ### A row's match and mask columns -/

/-- The mask and match columns of format N (R55, R59). -/
theorem mask_n_iff (w : CmdWord) (o : BitVec 8) :
    w &&& 0xFFFFFFFFFFFFFFFF#64 = o ++ 0#56 ↔ fieldOpc w = o ∧ fieldRsvN w = 0 := by
  conv_lhs => rw [mask_all_iff, word_split w]
  exact append_inj

/-- The mask and match columns of format C (R56, R59). -/
theorem mask_c_iff (w : CmdWord) (o : BitVec 8) :
    w &&& 0xFFFFFFFF00000000#64 = o ++ 0#24 ++ 0#32 ↔ fieldOpc w = o ∧ fieldRsvC w = 0 :=
  (mask_high_iff 32 32 w (o ++ 0#24)).trans (opcode_rsv_iff w o 24 32 rfl)

/-- The mask and match columns of format S (R57, R59). -/
theorem mask_s_iff (w : CmdWord) (o : BitVec 8) :
    w &&& 0xFFFFFFFC00000000#64 = o ++ 0#22 ++ 0#34 ↔ fieldOpc w = o ∧ fieldRsvS w = 0 :=
  (mask_high_iff 30 34 w (o ++ 0#22)).trans (opcode_rsv_iff w o 22 34 rfl)

/-- The mask and match columns of format P (R58, R59). -/
theorem mask_p_iff (w : CmdWord) (o : BitVec 8) :
    w &&& 0xFFFFFFFFFF000000#64 = o ++ 0#32 ++ 0#24 ↔ fieldOpc w = o ∧ fieldRsvP w = 0 :=
  (mask_high_iff 40 24 w (o ++ 0#32)).trans (opcode_rsv_iff w o 32 24 rfl)

theorem mem_opcodeTable {r : OpcodeRow} (hr : r ∈ opcodeTable) :
    r = ⟨.NOP, .n, 0x0000000000000000#64, 0xFFFFFFFFFFFFFFFF#64⟩ ∨
    r = ⟨.BB_START, .n, 0x0100000000000000#64, 0xFFFFFFFFFFFFFFFF#64⟩ ∨
    r = ⟨.BB_CHAR, .c, 0x0200000000000000#64, 0xFFFFFFFF00000000#64⟩ ∨
    r = ⟨.BB_END, .n, 0x0300000000000000#64, 0xFFFFFFFFFFFFFFFF#64⟩ ∨
    r = ⟨.EX_START, .s, 0x1000000000000000#64, 0xFFFFFFFC00000000#64⟩ ∨
    r = ⟨.EX_PIX, .p, 0x1100000000000000#64, 0xFFFFFFFFFF000000#64⟩ ∨
    r = ⟨.ERR_CLR, .n, 0x2000000000000000#64, 0xFFFFFFFFFFFFFFFF#64⟩ := by
  simpa [opcodeTable] using hr

/-- A word matches a row exactly when it has the row's opcode and its format's reserved bits are 0 (R59, R61). -/
theorem row_matches_iff {r : OpcodeRow} (hr : r ∈ opcodeTable) (w : CmdWord) :
    w &&& r.mask = r.pattern ↔ fieldOpc w = fieldOpc r.pattern ∧ rsvClear r.format w = true := by
  rcases mem_opcodeTable hr with rfl | rfl | rfl | rfl | rfl | rfl | rfl <;> simp only [rsvClear, beq_iff_eq]
  · exact mask_n_iff w 0x00#8
  · exact mask_n_iff w 0x01#8
  · exact mask_c_iff w 0x02#8
  · exact mask_n_iff w 0x03#8
  · exact mask_s_iff w 0x10#8
  · exact mask_p_iff w 0x11#8
  · exact mask_n_iff w 0x20#8

theorem row_eq_of_mnemonic_eq :
    ∀ r ∈ opcodeTable, ∀ r' ∈ opcodeTable, r.mnemonic = r'.mnemonic → r = r' := by decide

/-! ### What decode answers -/

/-- A word with a row's opcode is that row's command, up to its reserved bits (R54). -/
theorem decode_of_opcode {r : OpcodeRow} (hr : r ∈ opcodeTable) {w : CmdWord} (ho : fieldOpc w = fieldOpc r.pattern) :
    ∃ i : Instr, i.mnemonic = r.mnemonic ∧ decode w = checkRsv r.format w i := by
  rcases mem_opcodeTable hr with rfl | rfl | rfl | rfl | rfl | rfl | rfl
  · exact ⟨.nop, rfl, by rw [decode, ho]; rfl⟩
  · exact ⟨.bbStart, rfl, by rw [decode, ho]; rfl⟩
  · exact ⟨.bbChar (fieldCp w), rfl, by rw [decode, ho]; rfl⟩
  · exact ⟨.bbEnd, rfl, by rw [decode, ho]; rfl⟩
  · exact ⟨.exStart (fieldMode w) (fieldW w) (fieldH w), rfl, by rw [decode, ho]; rfl⟩
  · exact ⟨.exPix (fieldR w) (fieldG w) (fieldB w), rfl, by rw [decode, ho]; rfl⟩
  · exact ⟨.errClr, rfl, by rw [decode, ho]; rfl⟩

/-- A word with no row's opcode is unassigned (R61 case a). -/
theorem decode_of_no_opcode {w : CmdWord} (h : ∀ r ∈ opcodeTable, fieldOpc w ≠ fieldOpc r.pattern) :
    decode w = .error .unassignedOpcode := by
  obtain ⟨h0, h1, h2, h3, h4, h5, h6⟩ : fieldOpc w ≠ 0x00#8 ∧ fieldOpc w ≠ 0x01#8 ∧ fieldOpc w ≠ 0x02#8 ∧
      fieldOpc w ≠ 0x03#8 ∧ fieldOpc w ≠ 0x10#8 ∧ fieldOpc w ≠ 0x11#8 ∧ fieldOpc w ≠ 0x20#8 := by
    simpa [opcodeTable, fieldOpc] using h
  simp [decode, h0, h1, h2, h3, h4, h5, h6]

/-- A row that matches gives its command (R59, R60). -/
theorem decode_of_row_matches {r : OpcodeRow} (hr : r ∈ opcodeTable) {w : CmdWord} (h : w &&& r.mask = r.pattern) :
    ∃ i, decode w = .ok i ∧ i.mnemonic = r.mnemonic := by
  obtain ⟨ho, hrsv⟩ := (row_matches_iff hr w).mp h
  obtain ⟨i, hi, hd⟩ := decode_of_opcode hr ho
  exact ⟨i, by simp [hd, checkRsv, hrsv], hi⟩

theorem matchesOwnRow : ∀ i : Instr, Laws.MatchesOwnRow.Statement i
  | .nop => Laws.MatchesOwnRow.nop
  | .bbStart => Laws.MatchesOwnRow.bbStart
  | .bbChar cp => Laws.MatchesOwnRow.bbChar cp
  | .bbEnd => Laws.MatchesOwnRow.bbEnd
  | .exStart mode w h => Laws.MatchesOwnRow.exStart mode w h
  | .exPix r g b => Laws.MatchesOwnRow.exPix r g b
  | .errClr => Laws.MatchesOwnRow.errClr

/-- A word that decodes matches its command's row, since it is the command's own word (R59). -/
theorem row_matches_of_decode {w : CmdWord} {i : Instr} (hw : decode w = .ok i) :
    ∃ r ∈ opcodeTable, r.mnemonic = i.mnemonic ∧ w &&& r.mask = r.pattern := by
  obtain ⟨r, hr, hi, hm⟩ := matchesOwnRow i
  rw [encode_of_decode hw] at hm
  exact ⟨r, hr, hi, beq_iff_eq.mp hm⟩

theorem decode_mnemonic_iff_row_matches {r : OpcodeRow} (hr : r ∈ opcodeTable) (w : CmdWord) :
    (∃ i, decode w = .ok i ∧ i.mnemonic = r.mnemonic) ↔ w &&& r.mask = r.pattern := by
  refine ⟨fun ⟨i, hw, hi⟩ => ?_, decode_of_row_matches hr⟩
  obtain ⟨r', hr', hi', hm⟩ := row_matches_of_decode hw
  obtain rfl := row_eq_of_mnemonic_eq r' hr' r hr (hi'.trans hi)
  exact hm

/-- At most one row matches a word, for the word has one command (R59). -/
theorem row_matches_unique {r r' : OpcodeRow} (hr : r ∈ opcodeTable) (hr' : r' ∈ opcodeTable) {w : CmdWord}
    (hm : w &&& r.mask = r.pattern) (hm' : w &&& r'.mask = r'.pattern) : r = r' := by
  obtain ⟨i, hi, him⟩ := decode_of_row_matches hr hm
  obtain ⟨j, hj, hjm⟩ := decode_of_row_matches hr' hm'
  obtain rfl : i = j := Except.ok.inj (hi.symm.trans hj)
  exact row_eq_of_mnemonic_eq r hr r' hr' (him.symm.trans hjm)

theorem decode_error_iff (w : CmdWord) : (∃ e, decode w = .error e) ↔ ∀ r ∈ opcodeTable, w &&& r.mask ≠ r.pattern := by
  constructor
  · rintro ⟨e, he⟩ r hr hm
    obtain ⟨i, hi, -⟩ := decode_of_row_matches hr hm
    cases he.symm.trans hi
  · intro h
    cases hw : decode w with
    | error e => exact ⟨e, rfl⟩
    | ok i =>
      obtain ⟨r, hr, -, hm⟩ := row_matches_of_decode hw
      exact absurd hm (h r hr)

/-- R61 case a. -/
theorem decode_unassigned_iff (w : CmdWord) :
    decode w = .error .unassignedOpcode ↔ ∀ r ∈ opcodeTable, fieldOpc w ≠ fieldOpc r.pattern := by
  refine ⟨fun hw r hr ho => ?_, decode_of_no_opcode⟩
  obtain ⟨i, -, hd⟩ := decode_of_opcode hr ho
  cases hrsv : rsvClear r.format w <;> simp [hd, checkRsv, hrsv] at hw

/-- R61 case b. -/
theorem decode_reserved_iff (w : CmdWord) :
    decode w = .error .reservedBitSet ↔
      ∃ r ∈ opcodeTable, fieldOpc w = fieldOpc r.pattern ∧ rsvClear r.format w = false := by
  constructor
  · intro hw
    have hassigned : ∃ r ∈ opcodeTable, fieldOpc w = fieldOpc r.pattern := by
      by_contra hno
      have hu := decode_of_no_opcode (w := w) fun r hr ho => hno ⟨r, hr, ho⟩
      cases hw.symm.trans hu
    obtain ⟨r, hr, ho⟩ := hassigned
    obtain ⟨i, -, hd⟩ := decode_of_opcode hr ho
    refine ⟨r, hr, ho, Bool.eq_false_iff.mpr fun hrsv => ?_⟩
    simp [hd, checkRsv, hrsv] at hw
  · rintro ⟨r, hr, ho, hrsv⟩
    obtain ⟨i, -, hd⟩ := decode_of_opcode hr ho
    simp [hd, checkRsv, hrsv]

/-- An illegal word sets ERR_ILL and nothing else (R61). -/
theorem performWord_of_error {w : CmdWord} {e : IllegalWord} (s : State) (hw : decode w = .error e) :
    performWord w s = .next { s with err.ill := true } := by
  have hill : performWord w s = takeIllegal s := by simp [performWord, hw]
  exact hill

/-! ### The opcode and the reserved bits as quotients and remainders of the word -/

theorem fieldOpc_toNat (w : CmdWord) : (fieldOpc w).toNat = w.toNat / 2 ^ 56 := by
  rw [fieldOpc, BitVec.extractLsb'_toNat, Nat.shiftRight_eq_div_pow]
  omega

theorem fieldOpc_eq_iff (w v : CmdWord) : fieldOpc w = fieldOpc v ↔ w.toNat / 2 ^ 56 = v.toNat / 2 ^ 56 := by
  rw [← BitVec.toNat_inj, fieldOpc_toNat, fieldOpc_toNat]

theorem extract_eq_zero_iff (w : CmdWord) (k n : Nat) : w.extractLsb' k n = 0 ↔ w.toNat / 2 ^ k % 2 ^ n = 0 := by
  rw [← BitVec.toNat_inj, BitVec.extractLsb'_toNat, Nat.shiftRight_eq_div_pow]
  rfl

/-- A reserved bit is 1 where the field of R55 to R58 is not 0. -/
theorem rsvClear_eq_false_iff (f : Format) (w : CmdWord) :
    rsvClear f w = false ↔ match f with
      | .n => w.toNat % 2 ^ 56 ≠ 0
      | .c => w.toNat / 2 ^ 32 % 2 ^ 24 ≠ 0
      | .s => w.toNat / 2 ^ 34 % 2 ^ 22 ≠ 0
      | .p => w.toNat / 2 ^ 24 % 2 ^ 32 ≠ 0 := by
  cases f with
  | n => exact beq_eq_false_iff_ne.trans ((extract_eq_zero_iff w 0 56).trans (by rw [Nat.pow_zero, Nat.div_one])).not
  | c => exact beq_eq_false_iff_ne.trans (extract_eq_zero_iff w 32 24).not
  | s => exact beq_eq_false_iff_ne.trans (extract_eq_zero_iff w 34 22).not
  | p => exact beq_eq_false_iff_ne.trans (extract_eq_zero_iff w 24 32).not

/-- Of the 256 opcodes 249 are unassigned: 26 of those up to 0x20, and the 223 above it (R61). -/
theorem unassigned_opcode_count :
    ((List.range 256).filter fun o => !([0x00, 0x01, 0x02, 0x03, 0x10, 0x11, 0x20].contains o)).length = 249 := by
  have habove : ∀ o ∈ (List.range 223).map (33 + ·), (!([0x00, 0x01, 0x02, 0x03, 0x10, 0x11, 0x20].contains o)) = true := by
    intro o ho
    obtain ⟨k, -, hk⟩ := List.mem_map.mp ho
    have hunassigned : o ∉ [0x00, 0x01, 0x02, 0x03, 0x10, 0x11, 0x20] := by
      simp only [List.mem_cons, List.not_mem_nil, or_false]
      omega
    simpa using hunassigned
  rw [show List.range 256 = List.range 33 ++ (List.range 223).map (33 + ·) from List.range_add (n := 33) (m := 223), List.filter_append,
    List.filter_eq_self.mpr habove, List.length_append, List.length_map, List.length_range]
  decide

/-! ### The words of the encoder as numbers -/

theorem encode_toNat (i : Instr) : (encode i).toNat = i.opcode.toNat * 2 ^ 56 + i.payload.toNat :=
  append_toNat i.opcode i.payload

/-- Reserved zeros above a field do not count. -/
theorem zero_append_toNat {m n : Nat} (x : BitVec n) : (0#m ++ x).toNat = x.toNat := by
  rw [append_toNat, BitVec.toNat_zero, Nat.zero_mul, Nat.zero_add]

theorem encode_bbChar_toNat (cp : CodePoint) : (encode (.bbChar cp)).toNat = 0x02 * 2 ^ 56 + cp.toNat := by
  have hp : (Instr.bbChar cp).payload.toNat = cp.toNat := zero_append_toNat cp
  have ho : (Instr.bbChar cp).opcode.toNat = 0x02 := rfl
  rw [encode_toNat, hp, ho]

theorem encode_exStart_toNat (m : ImageMode) (w h : Dim) :
    (encode (.exStart m w h)).toNat = 0x10 * 2 ^ 56 + m.toNat * 2 ^ 32 + w.toNat * 2 ^ 16 + h.toNat := by
  have hm : (0#22 ++ m).toNat = m.toNat := zero_append_toNat m
  have hp : (Instr.exStart m w h).payload.toNat = (m.toNat * 2 ^ 16 + w.toNat) * 2 ^ 16 + h.toNat := by
    rw [← hm, ← append_toNat, ← append_toNat]
    rfl
  have ho : (Instr.exStart m w h).opcode.toNat = 0x10 := rfl
  rw [encode_toNat, hp, ho]
  omega

theorem encode_exPix_toNat (r g b : Byte) :
    (encode (.exPix r g b)).toNat = 0x11 * 2 ^ 56 + r.toNat * 2 ^ 16 + g.toNat * 2 ^ 8 + b.toNat := by
  have hr : (0#32 ++ r).toNat = r.toNat := zero_append_toNat r
  have hp : (Instr.exPix r g b).payload.toNat = (r.toNat * 2 ^ 8 + g.toNat) * 2 ^ 8 + b.toNat := by
    rw [← hr, ← append_toNat, ← append_toNat]
    rfl
  have ho : (Instr.exPix r g b).opcode.toNat = 0x11 := rfl
  rw [encode_toNat, hp, ho]
  omega

end Sys2Proof.Machine
end

section
/-! SUPPORT. The words of an assembler line (spec/30_encoding.md R63, R64). -/

namespace Sys2Proof.Machine

/-! ### Operands that fit their fields -/

theorem word_eq_ofNat {w : CmdWord} {n : Nat} (h : w.toNat = n) : w = BitVec.ofNat 64 n := by
  rw [← h, BitVec.ofNat_toNat, BitVec.setWidth_eq]

theorem encode_bbChar_ofNat {cp : Nat} (h : cp < 2 ^ 32) :
    encode (.bbChar (BitVec.ofNat 32 cp)) = BitVec.ofNat 64 (0x02 * 2 ^ 56 + cp) := by
  rw [word_eq_ofNat (encode_bbChar_toNat _), BitVec.toNat_ofNat, Nat.mod_eq_of_lt h]

theorem encode_exStart_ofNat {m w h : Nat} (hw : w < 2 ^ 16) (hh : h < 2 ^ 16) (hm : m < 4) :
    encode (.exStart (BitVec.ofNat 2 m) (BitVec.ofNat 16 w) (BitVec.ofNat 16 h)) =
      BitVec.ofNat 64 (0x10 * 2 ^ 56 + m * 2 ^ 32 + w * 2 ^ 16 + h) := by
  rw [word_eq_ofNat (encode_exStart_toNat _ _ _), BitVec.toNat_ofNat, BitVec.toNat_ofNat, BitVec.toNat_ofNat,
    Nat.mod_eq_of_lt hw, Nat.mod_eq_of_lt hh, Nat.mod_eq_of_lt hm]

theorem encode_exPix_ofNat {r g b : Nat} (hr : r < 256) (hg : g < 256) (hb : b < 256) :
    encode (.exPix (BitVec.ofNat 8 r) (BitVec.ofNat 8 g) (BitVec.ofNat 8 b)) =
      BitVec.ofNat 64 (0x11 * 2 ^ 56 + r * 2 ^ 16 + g * 2 ^ 8 + b) := by
  rw [word_eq_ofNat (encode_exPix_toNat _ _ _), BitVec.toNat_ofNat, BitVec.toNat_ofNat, BitVec.toNat_ofNat,
    Nat.mod_eq_of_lt hr, Nat.mod_eq_of_lt hg, Nat.mod_eq_of_lt hb]

theorem asmBbChar_eq (cp : Nat) :
    asmBbChar cp = if cp < 2 ^ 32 then some (encode (.bbChar (BitVec.ofNat 32 cp))) else none := by
  simp only [asmBbChar, codePointFits, decide_eq_true_eq]

theorem asmExStart_eq (w h m : Nat) :
    asmExStart w h m = if w < 2 ^ 16 ∧ h < 2 ^ 16 ∧ m < 4 then
      some (encode (.exStart (BitVec.ofNat 2 m) (BitVec.ofNat 16 w) (BitVec.ofNat 16 h))) else none := by
  simp only [asmExStart, dimFits, modeFits, Bool.and_eq_true, decide_eq_true_eq, and_assoc]

theorem asmExPix_eq (r g b : Nat) :
    asmExPix r g b = if r < 256 ∧ g < 256 ∧ b < 256 then
      some (encode (.exPix (BitVec.ofNat 8 r) (BitVec.ofNat 8 g) (BitVec.ofNat 8 b))) else none := by
  simp only [asmExPix, channelFits, Bool.and_eq_true, decide_eq_true_eq, and_assoc]

/-- A line of one command gives the word of its formula, or none. -/
theorem map_singleton_ite {p : Prop} [Decidable p] {x y : CmdWord} (h : p → x = y) :
    (if p then some x else none).map ([·]) = if p then some [y] else none := by
  by_cases hp : p
  · rw [if_pos hp, if_pos hp, h hp]
    rfl
  · rw [if_neg hp, if_neg hp]
    rfl

/-! ### The pseudo-instructions -/

theorem allSome_map_some {α β : Type} {f : α → Option β} {g : α → β} {l : List α} (h : ∀ a ∈ l, f a = some (g a)) :
    allSome (l.map f) = some (l.map g) := by
  induction l with
  | nil => rfl
  | cons a l ih =>
    obtain ⟨ha, hl⟩ := List.forall_mem_cons.mp h
    simp [allSome, ha, ih hl]

/-- BB_STR gives one BB_CHAR per character (R64). -/
theorem asmBbStr_eq {text : List Nat} (h : ∀ c ∈ text, c < 2 ^ 32) :
    asmBbStr text = some (text.map fun c => encode (.bbChar (BitVec.ofNat 32 c))) :=
  allSome_map_some fun c hc => by rw [asmBbChar_eq, if_pos (h c hc)]

theorem asmExPix_of_bytes (r g b : Byte) : asmExPix r.toNat g.toNat b.toNat = some (encode (.exPix r g b)) := by
  rw [asmExPix_eq, if_pos ⟨r.isLt, g.isLt, b.isLt⟩]
  simp

theorem Grid.pixels_length (gr : Grid) : gr.pixels.length = gr.width * gr.height := by
  simp [Grid.pixels, List.length_flatMap, Nat.mul_comm]

/-- EX_GRID gives EX_START, then one EX_PIX per pixel of the grid (R64). -/
theorem asmExGrid_eq (gr : Grid) {m : Nat} (hw : gr.width < 2 ^ 16) (hh : gr.height < 2 ^ 16) (hm : m < 4) :
    asmExGrid gr.width gr.height m (gr.pixels.map fun p => (p.r.toNat, p.g.toNat, p.b.toNat)) =
      some (encode (.exStart (BitVec.ofNat 2 m) (BitVec.ofNat 16 gr.width) (BitVec.ofNat 16 gr.height)) ::
        gr.pixels.map fun p => encode (.exPix p.r p.g p.b)) := by
  have hpix : allSome (gr.pixels.map fun p => asmExPix p.r.toNat p.g.toNat p.b.toNat) =
      some (gr.pixels.map fun p => encode (.exPix p.r p.g p.b)) :=
    allSome_map_some fun p _ => asmExPix_of_bytes p.r p.g p.b
  rw [asmExGrid, if_pos (by rw [List.length_map, Grid.pixels_length]), asmExStart_eq, if_pos ⟨hw, hh, hm⟩, List.map_map, allSome]
  exact congrArg _ hpix

end Sys2Proof.Machine
end

section
/-! The statements about the encoding, settled (spec/30_encoding.md). -/

namespace Sys2Proof.Machine

/-- Settles O1: the opcode selects the command, and each field reads its operand back. -/
theorem decodeOfEncodeIsTheCommand : Obligations.DecodeOfEncodeIsTheCommand :=
  fun i _ => decode_encode i

/-- Settles O2: the opcode, the fields and the reserved zeros are the whole word. -/
theorem encodeOfDecodeIsTheWord : Obligations.EncodeOfDecodeIsTheWord :=
  fun _ _ hw => encode_of_decode hw

/-- Settles O3: a row's columns are its opcode and its format's reserved bits. -/
theorem decodeAgreesWithTheOpcodeTable : Obligations.DecodeAgreesWithTheOpcodeTable :=
  ⟨rfl, fun w _ hr => decode_mnemonic_iff_row_matches hr w, fun _ _ hr _ hr' hm hm' => row_matches_unique hr hr' hm hm'⟩

/-- Settles O4: a word that decodes is its command's word, whose number is the sum of the fields. -/
theorem decodeIsTotalAndReadsTheFields : Obligations.DecodeIsTotalAndReadsTheFields := by
  refine ⟨fun w r hr => decode_of_row_matches hr, decode_error_iff, fun w cp hw => ?_, fun w m wd ht hw => ?_,
    fun w r g b hw => ?_⟩
  · rw [← encode_of_decode hw, encode_bbChar_toNat]
    omega
  · rw [← encode_of_decode hw, encode_exStart_toNat]
    omega
  · rw [← encode_of_decode hw, encode_exPix_toNat]
    omega

/-- Settles O5: the opcode is no row's, or it is a row's and that row's format has a reserved bit that is 1. -/
theorem illegalWordsAreTheTwoCases : Obligations.IllegalWordsAreTheTwoCases := by
  refine ⟨fun w => ?_, fun w => ?_, unassigned_opcode_count, fun w e s hw => performWord_of_error s hw⟩
  · rw [decode_unassigned_iff]
    simp [opcodeTable, fieldOpc_eq_iff]
  · rw [decode_reserved_iff]
    simp only [opcodeTable, List.mem_cons, List.not_mem_nil, or_false, exists_eq_or_imp, exists_eq_left, fieldOpc_eq_iff,
      rsvClear_eq_false_iff, BitVec.toNat_ofNat, Nat.reducePow, Nat.reduceMod, Nat.reduceDiv]
    tauto

/-- Settles O6: a line's words are those of its commands, and the numbers of those words are the formulas. -/
theorem assemblerFollowsItsFormulas : Obligations.AssemblerFollowsItsFormulas := by
  refine ⟨fun cp => ?_, fun w h m => ?_, fun r g b => ?_, fun v => ?_, fun text htext => ⟨asmBbStr_eq htext, ?_⟩,
    fun gr m hw hh hm => asmExGrid_eq gr hw hh hm⟩
  · rw [assembleLine, asmBbChar_eq]
    exact map_singleton_ite encode_bbChar_ofNat
  · rw [assembleLine, asmExStart_eq]
    exact map_singleton_ite fun ⟨hw, hh, hm⟩ => encode_exStart_ofNat hw hh hm
  · rw [assembleLine, asmExPix_eq]
    exact map_singleton_ite fun ⟨hr, hg, hb⟩ => encode_exPix_ofNat hr hg hb
  · simp only [assembleLine, wordFits, decide_eq_true_eq]
  · rw [assembleLine, asmBbStr_eq htext]
    rfl

/-- Settles O7: each word is evaluated. -/
theorem wordsOfEveryFormatDecode : Obligations.WordsOfEveryFormatDecode :=
  ⟨rfl, rfl, rfl, rfl, rfl, rfl, rfl⟩

end Sys2Proof.Machine
end

section
/-! SUPPORT. A channel's least significant bit, and the places of a traversal and of a grid's stream of pixels
(spec/40_traversal.md R65 to R69). -/

namespace Sys2Proof.Machine

/-! ### The bit of a channel -/

theorem and_one_eq_lsb (v : Byte) : v &&& 1#8 = if lsb v then 1#8 else 0#8 := by
  rw [BitVec.and_one_eq_setWidth_ofBool_getLsbD, lsb]
  cases v.getLsbD 0 <;> rfl

/-- The Embedder's write replaces bit 0 and keeps every other bit (R69). -/
theorem writeLsb_getLsbD (v : Byte) (b : Bit) (k : Nat) :
    (writeLsb v b).getLsbD k = if k = 0 then b else v.getLsbD k := by
  have hmask : (0xFE#8).getLsbD k = (decide (k < 8) && !decide (k = 0)) := by
    rw [show 0xFE#8 = ~~~1#8 from rfl, BitVec.getLsbD_not, BitVec.getLsbD_one]
    simp
  have hbit : (if b then 1#8 else 0#8).getLsbD k = (b && decide (k = 0)) := by
    cases b <;> simp [BitVec.getLsbD_one]
  rw [writeLsb, BitVec.getLsbD_or, BitVec.getLsbD_and, hmask, hbit]
  by_cases hk : k = 0
  · simp [hk]
  · rcases Nat.lt_or_ge k 8 with h8 | h8
    · simp [hk, h8]
    · simp [hk, BitVec.getLsbD_of_ge v k h8]

/-- The shift register takes in v & 1 and no other bit of the channel (R69, R80). -/
theorem shiftIn_congr {v v' : Byte} (h : lsb v = lsb v') (sr : Byte) : shiftIn sr v = shiftIn sr v' := by
  rw [shiftIn, shiftIn, and_one_eq_lsb, and_one_eq_lsb, h]

theorem collectBit_congr {v v' : Byte} (h : lsb v = lsb v') (s : State) : collectBit v s = collectBit v' s := by
  rw [collectBit, collectBit, shiftIn_congr h]

/-! ### Places in the traversal and in the stream -/

/-- The column and the row of the k-th pixel are the grid's (R66). -/
theorem col_row_lt {w h k : Nat} (hk : k < w * h) : k % w < w ∧ k / w < h :=
  ⟨Nat.mod_lt k (Nat.pos_of_mul_pos_right (Nat.zero_lt_of_lt hk)), Nat.div_lt_of_lt_mul hk⟩

theorem Channel.index_ofIndex {c : Nat} (hc : c < 3) : (Channel.ofIndex c).index = c := by
  match c, hc with
  | 0, _ | 1, _ | 2, _ => rfl

theorem traversal_length (w h : Nat) : (traversal w h).length = 3 * (w * h) := by
  simp [traversal, List.length_flatMap, Nat.mul_comm, Nat.mul_left_comm, Nat.mul_assoc]

/-- Each row of the traversal is 3*W pairs and each of its pixels 3, so the pair of (x, y, ch) is at 3*(y*W + x) + c (R66). -/
theorem traversal_getElem {w h x y : Nat} (ch : Channel) (hx : x < w) (hy : y < h) :
    (traversal w h)[3 * (y * w + x) + ch.index]? = some ⟨x, y, ch⟩ := by
  have hc : ch.index < 3 := by cases ch <;> decide
  have hcol : x * 3 + ch.index < w * 3 := by omega
  have hindex : 3 * (y * w + x) + ch.index = y * (w * 3) + (x * 3 + ch.index) := by ring
  rw [hindex, traversal, range_flatMap_getElem _ h (w * 3) (by simp [List.length_flatMap]) y _ hy hcol,
    range_flatMap_getElem _ w 3 (fun _ => rfl) x _ hx hc]
  cases ch <;> rfl

/-- The other direction: an index below 3*W*H is the index of its quotients and remainders (R66). -/
theorem traversal_getElem_of_lt {w h t : Nat} (ht : t < 3 * (w * h)) :
    (traversal w h)[t]? = some ⟨t / 3 % w, t / 3 / w, Channel.ofIndex (t % 3)⟩ := by
  obtain ⟨hx, hy⟩ := col_row_lt (w := w) (h := h) (k := t / 3) (by omega)
  have hpix : t / 3 / w * w + t / 3 % w = t / 3 := Nat.div_add_mod' _ _
  have hplace := traversal_getElem (Channel.ofIndex (t % 3)) hx hy
  rwa [hpix, Channel.index_ofIndex (Nat.mod_lt t (by decide)), Nat.div_add_mod] at hplace

/-- Pixel (x, y) is number y*W + x of the stream (R66, R67). -/
theorem Grid.pixels_getElem (gr : Grid) {x y : Nat} (hx : x < gr.width) (hy : y < gr.height) :
    gr.pixels[y * gr.width + x]? = some (gr.pixel x y) := by
  rw [Grid.pixels, range_flatMap_getElem _ gr.height gr.width (by simp) y x hy hx]
  simp [hx]

theorem Grid.pixels_getElem_of_lt (gr : Grid) {k : Nat} (hk : k < gr.width * gr.height) :
    gr.pixels[k]? = some (gr.pixel (k % gr.width) (k / gr.width)) := by
  obtain ⟨hx, hy⟩ := col_row_lt hk
  have hpixel := gr.pixels_getElem hx hy
  rwa [Nat.div_add_mod'] at hpixel

/-- The stream and the traversal run over the same rows and columns, and each pixel gives its three LSBs in the order R, G, B
(R65, R67). -/
theorem streamLsbs_pixels (gr : Grid) : streamLsbs gr.pixels = gr.lsbs := by
  rw [streamLsbs, Grid.pixels, Grid.lsbs, traversal, List.flatMap_assoc, List.map_flatMap]
  congr 1
  funext y
  rw [List.flatMap_map, List.map_flatMap]
  rfl

end Sys2Proof.Machine
end

section
/-! The statements about the traversal, settled (spec/40_traversal.md). -/

namespace Sys2Proof.Machine

/-- Settles O22: EX_PIX reads its channels through the shift register only, which takes in v & 1. -/
theorem onlyTheLsbOfAChannelMatters : Obligations.OnlyTheLsbOfAChannelMatters := by
  refine ⟨and_one_eq_lsb, fun v b => ⟨writeLsb_getLsbD v b 0, fun k hk => ?_⟩, fun r g b r' g' b' s hr hg hb => ?_⟩
  · rw [writeLsb_getLsbD, if_neg hk.ne']
  · simp only [exec, execExPix, collectBit_congr hr, collectBit_congr hg, collectBit_congr hb]

/-- Settles O46: rows of 3*W pairs, pixels of 3 pairs. -/
theorem traversalIndexIsThePlace : Obligations.TraversalIndexIsThePlace := by
  refine fun w h => ⟨traversal_length w h, fun x y ch => traversal_getElem ch, fun t => traversal_getElem_of_lt, ?_⟩
  rintro gr x y rfl rfl hx hy
  exact gr.pixels_getElem hx hy

/-- Settles O47: the stream and the traversal run over the same rows and columns. -/
theorem pixelStreamIsTheTraversal : Obligations.PixelStreamIsTheTraversal :=
  fun gr => ⟨gr.pixels_length, fun _ => gr.pixels_getElem_of_lt, streamLsbs_pixels gr⟩

end Sys2Proof.Machine
end

section
/-! SUPPORT. What a builder command's checks lead to in a state, the bits of build at their places, and a builder session as
a run of its commands (spec/41_builder.md R70 to R74). -/

namespace Sys2Proof.Machine

/-! ### One builder command -/

/-- An effect that sets no flag only replaces the builder and emits its bits. -/
theorem BuilderEffect.applyTo_no_stray (b : Builder) (bits : List Bit) (s : State) :
    BuilderEffect.applyTo { bb := b, bits := bits } s =
      { s with bb := b, portLog := s.portLog ++ bits.map PortEvent.bit } := by
  simp [applyTo]

theorem codePointTooLarge_eq_true {cp : CodePoint} : codePointTooLarge cp = true ↔ 255 < cp.toNat := by
  simp [codePointTooLarge, Config.maxCodePoint]

theorem counterOverflows_eq_true {c : Counter} {n : Nat} : counterOverflows c n = true ↔ 2 ^ 32 ≤ c.toNat + n := by
  rw [← Bool.not_eq_false, counterOverflows_eq_false, Nat.not_lt]

/-- The effect that the checks lead to is what the command does (R71, R72, R73). -/
theorem BuilderEffectOf.exec_eq {s : State} {i : Instr} {f : BuilderEffect} (h : BuilderEffectOf s.bb i f) :
    exec i s = .next (f.applyTo s) := by
  cases h with
  | opened => rw [BuilderEffect.applyTo_quiet]; rfl
  | stray hi hne hst => rw [exec_bbData_stray hi hne hst, BuilderEffect.applyTo_stray]
  | ignored hi hne hst => rw [exec_bbData_ignored hi hne hst, BuilderEffect.applyTo_quiet]
  | tooLarge hst hcp => simp [exec, execBbChar, hst, hcp, BuilderEffect.applyTo_quiet, recordError]
  | charOverflow hst hcp hroom => simp [exec, execBbChar, hst, hcp, hroom, BuilderEffect.applyTo_quiet, recordError]
  | char hst hcp hroom =>
    simp [exec, execBbChar, hst, hcp, hroom, BuilderEffect.applyTo_no_stray, emitBits, addBbCount]
  | endOverflow hst hroom => simp [exec, execBbEnd, hst, hroom, BuilderEffect.applyTo_quiet, recordError]
  | ended hst hroom => simp [exec, execBbEnd, hst, hroom, BuilderEffect.applyTo_no_stray, emitBits, addBbCount]

/-! ### The bits of build -/

theorem bits8_getElem (c : Nat) {k : Nat} (hk : k < 8) : (bits8 c)[k]? = some (c.testBit (7 - k)) := by
  match k, hk with
  | 0, _ | 1, _ | 2, _ | 3, _ | 4, _ | 5, _ | 6, _ | 7, _ => rfl

/-- Bit k of the i-th character, MSB first, is bit 8*i + k of the message (R35, R70). -/
theorem messageBits_getElem {m : List Nat} {i k : Nat} (hi : i < m.length) (hk : k < 8) :
    (messageBits m)[8 * i + k]? = some ((m.getD i 0).testBit (7 - k)) := by
  induction m generalizing i with
  | nil => cases hi
  | cons c m ih =>
    rw [show messageBits (c :: m) = bits8 c ++ messageBits m from rfl]
    cases i with
    | zero =>
      rw [List.getElem?_append_left (by rw [bits8_length]; omega), Nat.mul_zero, Nat.zero_add, bits8_getElem c hk]
      rfl
    | succ i =>
      rw [List.getElem?_append_right (by rw [bits8_length]; omega), bits8_length,
        show 8 * (i + 1) + k - 8 = 8 * i + k by omega, ih (Nat.lt_of_succ_lt_succ hi)]
      rfl

/-- build fails exactly on a code point above 255 (R70). -/
theorem build_eq_error_iff {m : List Nat} : build m = .error .encoding ↔ ∃ c ∈ m, 255 < c := by
  by_cases hm : ∀ c ∈ m, c ≤ 255
  · have hno : ¬ ∃ c ∈ m, 255 < c := fun ⟨c, hc, hbig⟩ => Nat.not_lt.mpr (hm c hc) hbig
    simp [build_ok hm, hno]
  · have hbig : ∃ c ∈ m, 255 < c := by simpa using hm
    simp [build, Config.maxCodePoint, hbig]

/-! ### Runs of builder commands -/

/-- The outcome of presenting the words of a sequence of commands and running them. -/
def runCommands (cs : List Instr) (s : State) : Host.Outcome State Fault Refusal :=
  Sys2Proof.core.run cs.length (presentWords (cs.map encode) s)

/-- A run performs its first command and goes on with the others. -/
theorem runCommands_effect {s : State} {i : Instr} {f : BuilderEffect} (h : BuilderEffectOf s.bb i f) (cs : List Instr) :
    runCommands (i :: cs) s = runCommands cs (f.applyTo s) :=
  run_presentWords_cons cs h.exec_eq

/-- A session whose builder has failed ignores the rest of its commands (R91). -/
theorem runCommands_failed (cs : List Instr) {s : State} (hcs : ∀ i ∈ cs, isBb i = true ∧ i ≠ .bbStart)
    (hst : s.bb.st = .encErr ∨ s.bb.st = .ovfErr) : runCommands cs s = .next s := by
  induction cs with
  | nil => rfl
  | cons i cs ih =>
    obtain ⟨⟨hi, hne⟩, hcs⟩ := List.forall_mem_cons.mp hcs
    rw [runCommands_effect (.ignored hi hne hst), BuilderEffect.applyTo_quiet]
    exact ih hcs

/-- The builder in a session that is open after the characters of p. -/
def openBuilder (p : List CodePoint) : Builder :=
  { st := .active, out := messageBits (p.map BitVec.toNat), count := BitVec.ofNat 32 (8 * p.length) }

theorem openBuilder_count {p : List CodePoint} (hroom : 8 * p.length < 2 ^ 32) :
    (openBuilder p).count.toNat = 8 * p.length := by
  rw [openBuilder, BitVec.toNat_ofNat, Nat.mod_eq_of_lt hroom]

/-- One character more (R72). -/
theorem openBuilder_snoc {p : List CodePoint} (c : CodePoint) (hroom : 8 * p.length < 2 ^ 32) :
    { openBuilder p with
        out := (openBuilder p).out ++ bits8 c.toNat
        count := counterAdd (openBuilder p).count 8 } = openBuilder (p ++ [c]) := by
  rw [counterAdd, openBuilder_count hroom]
  simp [openBuilder, messageBits_snoc, Nat.mul_add]

/-- BB_START and characters that encode, while the counter has room, leave the session open (R71, R72). -/
theorem run_opened (s : State) (p : List CodePoint) (hp : ∀ c ∈ p, c.toNat ≤ 255) (hroom : 8 * p.length < 2 ^ 32)
    (rest : List Instr) :
    ∃ t, runCommands ([.bbStart] ++ p.map Instr.bbChar ++ rest) s = runCommands rest t ∧ t.bb = openBuilder p ∧
      t.err.seqb = s.err.seqb := by
  induction p using List.reverseRecOn generalizing rest with
  | nil => exact ⟨_, runCommands_effect .opened rest, rfl, by simp⟩
  | append_singleton p c ih =>
    rw [List.length_append, List.length_singleton] at hroom
    obtain ⟨hp, hc⟩ := List.forall_mem_append.mp hp
    obtain ⟨t, hrun, hbb, hseqb⟩ := ih hp (by omega) (.bbChar c :: rest)
    have hcount : t.bb.count.toNat = 8 * p.length := hbb ▸ openBuilder_count (by omega)
    have hchar := BuilderEffectOf.char (b := t.bb) (cp := c) (hbb ▸ rfl)
      (codePointTooLarge_eq_false.mpr (hc c (List.mem_singleton_self c))) (counterOverflows_eq_false.mpr (by omega))
    have hlist : [.bbStart] ++ (p ++ [c]).map Instr.bbChar ++ rest =
        [.bbStart] ++ p.map Instr.bbChar ++ .bbChar c :: rest := by simp
    rw [hlist, hrun, runCommands_effect hchar]
    exact ⟨_, rfl, by rw [BuilderEffect.applyTo_bb, hbb, openBuilder_snoc c (by omega)], by simp [hseqb]⟩

/-! ### Sessions -/

/-- A list cut at one of its places. -/
theorem take_append_getElem_cons_drop {α : Type} {l : List α} {j : Nat} (hj : j < l.length) :
    l.take j ++ l[j] :: l.drop (j + 1) = l := by
  rw [List.getElem_cons_drop, List.take_append_drop]

/-- The commands of a builder session (R74). -/
def sessionCommands (m : List CodePoint) : List Instr := [.bbStart] ++ m.map Instr.bbChar ++ [.bbEnd]

/-- The session of the message m, run from s, leaves the builder b and keeps ERR_SEQB. -/
def SessionEnds (m : List CodePoint) (s : State) (b : Builder) : Prop :=
  ∃ t, runCommands (sessionCommands m) s = .next t ∧ t.bb = b ∧ t.err.seqb = s.err.seqb

/-- After its characters a session ends as BB_END leaves the builder. -/
theorem sessionEnds_of_end (s : State) {m : List CodePoint} {b : Builder} {bits : List Bit} (hm : ∀ c ∈ m, c.toNat ≤ 255)
    (hroom : 8 * m.length < 2 ^ 32) (h : BuilderEffectOf (openBuilder m) .bbEnd { bb := b, bits := bits }) :
    SessionEnds m s b := by
  obtain ⟨t, hrun, hbb, hseqb⟩ := run_opened s m hm hroom [.bbEnd]
  rw [← hbb] at h
  exact ⟨BuilderEffect.applyTo { bb := b, bits := bits } t, hrun.trans (runCommands_effect h []), rfl, by simp [hseqb]⟩

/-- A session ends at the character that makes it fail. -/
theorem sessionEnds_of_char (s : State) {p : List CodePoint} {c : CodePoint} (q : List CodePoint) {b : Builder}
    (hp : ∀ c ∈ p, c.toNat ≤ 255) (hroom : 8 * p.length < 2 ^ 32)
    (h : BuilderEffectOf (openBuilder p) (.bbChar c) { bb := b }) (hst : b.st = .encErr ∨ b.st = .ovfErr) :
    SessionEnds (p ++ c :: q) s b := by
  obtain ⟨t, hrun, hbb, hseqb⟩ := run_opened s p hp hroom (.bbChar c :: (q.map Instr.bbChar ++ [.bbEnd]))
  rw [← hbb] at h
  have hdata : ∀ i ∈ q.map Instr.bbChar ++ [.bbEnd], isBb i = true ∧ i ≠ .bbStart := by
    simp only [List.mem_append, List.mem_map, List.mem_singleton]
    rintro i (⟨d, -, rfl⟩ | rfl) <;> exact ⟨rfl, nofun⟩
  have hlist : sessionCommands (p ++ c :: q) =
      [.bbStart] ++ p.map Instr.bbChar ++ .bbChar c :: (q.map Instr.bbChar ++ [.bbEnd]) := by simp [sessionCommands]
  refine ⟨BuilderEffect.applyTo { bb := b } t, ?_, rfl, by simp [hseqb]⟩
  rw [hlist, hrun, runCommands_effect h]
  exact runCommands_failed _ hdata hst

/-- R74, the first case. -/
theorem sessionEnds_done (s : State) {m : List CodePoint} (hm : ∀ c ∈ m, c.toNat ≤ 255) (hroom : 8 * m.length + 16 < 2 ^ 32) :
    SessionEnds m s
      { st := .done
        out := messageBits (m.map BitVec.toNat) ++ Config.marker
        count := counterAdd (openBuilder m).count 16 } :=
  have hchars : 8 * m.length < 2 ^ 32 := by omega
  sessionEnds_of_end s hm hchars (.ended rfl (counterOverflows_eq_false.mpr (by rwa [openBuilder_count hchars])))

/-- R74, the second case: the characters before the first that does not encode. -/
theorem sessionEnds_encErr (s : State) {p : List CodePoint} {c : CodePoint} (q : List CodePoint)
    (hp : ∀ c ∈ p, c.toNat ≤ 255) (hroom : 8 * p.length < 2 ^ 32) (hc : 255 < c.toNat) :
    SessionEnds (p ++ c :: q) s { openBuilder p with st := .encErr } :=
  sessionEnds_of_char s q hp hroom (.tooLarge rfl (codePointTooLarge_eq_true.mpr hc)) (.inl rfl)

/-- R74, the third case at a character: of characters that encode, the counter takes 2^29 - 1. -/
theorem sessionEnds_overflow (s : State) {p : List CodePoint} (q : List CodePoint) (hp : ∀ c ∈ p, c.toNat ≤ 255)
    (hroom : 2 ^ 32 ≤ 8 * p.length) : ∃ b, SessionEnds (p ++ q) s b ∧ b.st = .ovfErr := by
  have hlt : 536870911 < p.length := by omega
  obtain ⟨a, c, r, rfl, ha⟩ : ∃ a c r, p = a ++ c :: r ∧ a.length = 536870911 :=
    ⟨_, _, _, (take_append_getElem_cons_drop hlt).symm, List.length_take_of_le hlt.le⟩
  obtain ⟨ha255, hcr255⟩ := List.forall_mem_append.mp hp
  have hchar : BuilderEffectOf (openBuilder a) (.bbChar c) { bb := { openBuilder a with st := .ovfErr } } :=
    .charOverflow rfl (codePointTooLarge_eq_false.mpr (hcr255 c List.mem_cons_self))
      (counterOverflows_eq_true.mpr (by rw [openBuilder_count (by omega)]; omega))
  rw [List.append_assoc, List.cons_append]
  exact ⟨_, sessionEnds_of_char s (r ++ q) ha255 (by omega) hchar (.inr rfl), rfl⟩

/-- R74, the third case where every character encodes: without room for a character, or for the marker. -/
theorem sessionEnds_ovfErr (s : State) {m : List CodePoint} (hm : ∀ c ∈ m, c.toNat ≤ 255)
    (hroom : 2 ^ 32 ≤ 8 * m.length + 16) : ∃ b, SessionEnds m s b ∧ b.st = .ovfErr := by
  rcases Nat.lt_or_ge (8 * m.length) (2 ^ 32) with hchars | hchars
  · exact ⟨_, sessionEnds_of_end s hm hchars
      (.endOverflow rfl (counterOverflows_eq_true.mpr (by rwa [openBuilder_count hchars]))), rfl⟩
  · simpa using sessionEnds_overflow s [] hm hchars

/-- Every session ends in one of R74's cases. -/
theorem sessionEnds_exists (m : List CodePoint) (s : State) : ∃ b, SessionEnds m s b := by
  cases hfirst : m.find? fun c => decide (255 < c.toNat) with
  | none =>
    have hm : ∀ c ∈ m, c.toNat ≤ 255 := by simpa using hfirst
    rcases Nat.lt_or_ge (8 * m.length + 16) (2 ^ 32) with hroom | hroom
    · exact ⟨_, sessionEnds_done s hm hroom⟩
    · exact (sessionEnds_ovfErr s hm hroom).imp fun _ h => h.1
  | some c =>
    obtain ⟨hc, p, q, rfl, hbefore⟩ := List.find?_eq_some_iff_append.mp hfirst
    have hp : ∀ c ∈ p, c.toNat ≤ 255 := by simpa using hbefore
    rcases Nat.lt_or_ge (8 * p.length) (2 ^ 32) with hroom | hroom
    · exact ⟨_, sessionEnds_encErr s q hp hroom (of_decide_eq_true hc)⟩
    · exact (sessionEnds_overflow s _ hp hroom).imp fun _ h => h.1

/-- With EX commands interleaved the builder ends as its own session leaves it (R28). -/
theorem run_interleaved_session {m : List CodePoint} {cs : List Instr} (s : State)
    (hcs : ∀ i ∈ cs, isBb i = true ∨ isEx i = true) (hm : cs.filter isBb = sessionCommands m) :
    ∃ t, Sys2Proof.core.run cs.length (presentWords (cs.map encode) s) = .next t ∧
      ∀ b, SessionEnds m s b → t.bb = b ∧ t.err.seqb = s.err.seqb := by
  obtain ⟨t, u, -, hrun, hbuilder, -, hbb, hseqb, -⟩ := run_interleaved cs hcs (s := s) rfl rfl rfl rfl
  rw [hm] at hbuilder
  refine ⟨t, hrun, ?_⟩
  rintro b ⟨u', hsession, rfl, hkeeps⟩
  obtain rfl : u = u' := Host.Outcome.next.inj (hbuilder.symm.trans hsession)
  exact ⟨hbb, hseqb.trans hkeeps⟩

end Sys2Proof.Machine
end

section
/-! The statements about the builder, settled (spec/41_builder.md). -/

namespace Sys2Proof.Machine

/-- Settles O15: each clause is the effect that its checks lead to. -/
theorem bbCharFollowsItsRule : Obligations.BbCharFollowsItsRule := by
  refine ⟨fun cp s hst hcp hroom => ?_, fun cp s hst hcp => ?_, fun cp s hst hcp hroom => ?_,
    fun cp s => exec_bbData_stray rfl nofun, fun cp s => exec_bbData_ignored rfl nofun, encode_bbChar_toNat⟩
  · rw [(BuilderEffectOf.char hst (codePointTooLarge_eq_false.mpr hcp)
      (counterOverflows_eq_false.mpr (by omega))).exec_eq, BuilderEffect.applyTo_no_stray, hst]
    rfl
  · rw [(BuilderEffectOf.tooLarge hst (codePointTooLarge_eq_true.mpr hcp)).exec_eq, BuilderEffect.applyTo_quiet]
  · rw [(BuilderEffectOf.charOverflow hst (codePointTooLarge_eq_false.mpr hcp)
      (counterOverflows_eq_true.mpr (by omega))).exec_eq, BuilderEffect.applyTo_quiet]

/-- Settles O16: each clause is the effect that its checks lead to. -/
theorem bbEndFollowsItsRule : Obligations.BbEndFollowsItsRule := by
  refine ⟨fun s hst hroom => ?_, fun s hst hroom => ?_, fun s => exec_bbData_stray rfl nofun,
    fun s => exec_bbData_ignored rfl nofun, rfl⟩
  · rw [(BuilderEffectOf.ended hst (counterOverflows_eq_false.mpr (by omega))).exec_eq, BuilderEffect.applyTo_no_stray]
    rfl
  · rw [(BuilderEffectOf.endOverflow hst (counterOverflows_eq_true.mpr (by omega))).exec_eq, BuilderEffect.applyTo_quiet]

/-- Settles O41: EX commands leave the builder alone, and the builder's own session has R74's cases, which are divided by the
first code point above 255 and by the counter's room for the characters before it. -/
theorem builderSessionComputesBuild : Obligations.BuilderSessionComputesBuild := by
  intro m cs s hcs hm
  obtain ⟨t, hrun, hends⟩ := run_interleaved_session s hcs hm
  refine ⟨t, hrun, ?_, fun hsmall hroom => ?_, ?_, fun hsmall hroom => ?_, ?_⟩
  · obtain ⟨b, hb⟩ := sessionEnds_exists m s
    exact (hends b hb).2
  · obtain ⟨hbb, -⟩ := hends _ (sessionEnds_done s hsmall (by omega))
    have hcount := openBuilder_count (p := m) (by omega)
    rw [hbb]
    refine ⟨rfl, build_ok (by simpa using hsmall), ?_⟩
    rw [counterAdd_toNat (by omega), hcount]
  · rintro j ⟨hj, hbig⟩ hsmall hroom
    have hlen : (m.take j).length = j := List.length_take_of_le hj.le
    have hsession := sessionEnds_encErr s (m.drop (j + 1)) hsmall (by omega) hbig
    rw [take_append_getElem_cons_drop hj] at hsession
    obtain ⟨hbb, -⟩ := hends _ hsession
    rw [hbb]
    refine ⟨rfl, rfl, (openBuilder_count (by omega)).trans (by rw [hlen]), ?_⟩
    exact build_eq_error_iff.mpr ⟨_, List.mem_map_of_mem (List.getElem_mem hj), hbig⟩
  · obtain ⟨b, hb, hst⟩ := sessionEnds_ovfErr s hsmall (by omega)
    rw [(hends b hb).1, hst]
  · rintro j ⟨hj, -⟩ hsmall hroom
    have hlen : (m.take j).length = j := List.length_take_of_le hj.le
    obtain ⟨b, hb, hst⟩ := sessionEnds_overflow s (m[j] :: m.drop (j + 1)) hsmall (by omega)
    rw [take_append_getElem_cons_drop hj] at hb
    rw [(hends b hb).1, hst]

/-- Settles O45: the bits are those of the characters, then the marker. -/
theorem buildFailsExactlyAbove255 : Obligations.BuildFailsExactlyAbove255 := by
  refine ⟨fun m => build_eq_error_iff, fun m hm => ⟨_, build_ok hm, ?_, fun i k hi hk => ?_, fun k hk => ?_⟩, rfl⟩
  · rw [List.length_append, messageBits_length]
    rfl
  · rw [List.getElem?_append_left (by rw [messageBits_length]; omega), messageBits_getElem hi hk]
  · have hmarker : ∀ k < 16, Config.marker[k]? = some (decide (k ≠ 15)) := by decide
    rw [List.getElem?_append_right (by rw [messageBits_length]; omega), messageBits_length, Nat.add_sub_cancel_left,
      hmarker k hk]

/-- Settles O14: the session's fields are written, whatever they were. -/
theorem bbStartOpensAnEmptySession : Obligations.BbStartOpensAnEmptySession := by
  refine ⟨fun s => rfl, fun s t u ht hu => ?_, rfl⟩
  cases ht
  cases hu
  rfl

end Sys2Proof.Machine
end

section
/-! SUPPORT. One pixel as its three LSBs, and an extractor session as a run of its commands (spec/42_extractor.md R79 to
R81). -/

namespace Sys2Proof.Machine

/-! ### EX_START -/

/-- The grids that EX_START accepts (R79). -/
theorem gridRejected_eq_false {mode : ImageMode} {w h : Dim} :
    gridRejected mode w h = false ↔ mode.toNat = 0 ∧ 0 < w.toNat ∧ 0 < h.toNat := by
  simp [gridRejected, Config.rgbMode, ← BitVec.toNat_inj, Nat.pos_iff_ne_zero, and_assoc]

theorem gridRejected_eq_true {mode : ImageMode} {w h : Dim} :
    gridRejected mode w h = true ↔ mode.toNat ≠ 0 ∨ w.toNat = 0 ∨ h.toNat = 0 := by
  simp [gridRejected, Config.rgbMode, ← BitVec.toNat_inj, or_assoc]

theorem exec_exStart_accepted {mode : ImageMode} {w h : Dim} (s : State) (hgrid : gridRejected mode w h = false) :
    exec (.exStart mode w h) s = .next (openGrid w h s) := by
  simp [exec, execExStart, hgrid]

theorem exec_exStart_rejected {mode : ImageMode} {w h : Dim} (s : State) (hgrid : gridRejected mode w h = true) :
    exec (.exStart mode w h) s = .next (recordError .format (openGrid w h s)) := by
  simp [exec, execExStart, hgrid]

/-! ### The three channels of a pixel -/

/-- A pixel's channels collected in their order, before the pixel is counted (R80). -/
def collectPixel (r g b : Byte) (s : State) : State := collectBit b (collectBit g (collectBit r s))

/-- EX_PIX in an open session collects its channels and counts the pixel (R80). -/
theorem exec_exPix_open (r g b : Byte) {s : State} (hst : s.ex.st = .active) :
    exec (.exPix r g b) s = .next { collectPixel r g b s with ex := closePixel (collectPixel r g b s).ex } := by
  have hexec : exec (.exPix r g b) s = .next (closeGrid (countPixel (collectPixel r g b s))) := by
    simp [exec, execExPix, hst, collectPixel]
  rw [hexec, closeGrid_countPixel]

/-- EX_PIX without an open session sets ERR_SEQX only (R91). -/
theorem exec_exPix_stray (r g b : Byte) {s : State} (hst : s.ex.st = .idle ∨ s.ex.st = .done) :
    exec (.exPix r g b) s = .next (recordError .sequenceX s) := by
  rcases hst with hst | hst <;> simp [exec, execExPix, hst]

/-- EX_PIX to a rejected grid is ignored (R91). -/
theorem exec_exPix_ignored (r g b : Byte) {s : State} (hst : s.ex.st = .fmtErr) : exec (.exPix r g b) s = .next s := by
  simp [exec, execExPix, hst]

/-- What collecting a pixel leaves unchanged. -/
theorem collectPixel_frame (r g b : Byte) (s : State) :
    (collectPixel r g b s).bb = s.bb ∧ (collectPixel r g b s).hostIn = s.hostIn ∧
      (collectPixel r g b s).err = s.err ∧ (collectPixel r g b s).ex.st = s.ex.st ∧
      (collectPixel r g b s).ex.w = s.ex.w ∧ (collectPixel r g b s).ex.h = s.ex.h ∧
      (collectPixel r g b s).ex.pixcnt = s.ex.pixcnt := by
  simp only [collectPixel, collectBit_frame, and_self]

/-- After the marker a pixel's channels change nothing (R24). -/
theorem collectPixel_mark (r g b : Byte) {s : State} (hm : s.ex.mark = true) : collectPixel r g b s = s := by
  simp only [collectPixel, collectBit_mark _ s hm]

/-- A pixel adds its three LSBs to what has been collected (R66, R80). -/
theorem collectPixel_collected (r g b : Byte) {l : List Bit} {s : State} (h : Collected l s.ex)
    (hlen : l.length + 3 ≤ 2 ^ 34) : Collected (l ++ [lsb r, lsb g, lsb b]) (collectPixel r g b s).ex := by
  have hr := collectBit_collected r h (by omega)
  have hg := collectBit_collected g hr (by simp; omega)
  have hb := collectBit_collected b hg (by simp; omega)
  simpa [collectPixel] using hb

theorem collectBit_emits (v : Byte) (s : State) :
    ∃ bytes, (collectBit v s).ex.out = s.ex.out ++ bytes ∧ (collectBit v s).portLog = s.portLog ++ bytes.map .char := by
  obtain ⟨e', bytes, h, heq⟩ := collectBit_effect v s.ex
  rw [heq s rfl]
  exact ⟨bytes, h.out, rfl⟩

/-- What a pixel adds to EX_OUT goes out on CHAR_OUT (R8, R23). -/
theorem collectPixel_portLog (r g b : Byte) {s : State} {bytes : List Byte}
    (hout : (collectPixel r g b s).ex.out = s.ex.out ++ bytes) :
    (collectPixel r g b s).portLog = s.portLog ++ bytes.map .char := by
  obtain ⟨l₁, hr, hr'⟩ := collectBit_emits r s
  obtain ⟨l₂, hg, hg'⟩ := collectBit_emits g (collectBit r s)
  obtain ⟨l₃, hb, hb'⟩ := collectBit_emits b (collectBit g (collectBit r s))
  rw [collectPixel, hb, hg, hr, List.append_assoc, List.append_assoc] at hout
  rw [collectPixel, hb', hg', hr', ← List.append_cancel_left hout]
  simp

theorem collectPixel_quiet (r g b : Byte) {s : State} (hout : (collectPixel r g b s).ex.out = s.ex.out) :
    (collectPixel r g b s).portLog = s.portLog := by
  have hlog := collectPixel_portLog r g b (bytes := []) (by rw [hout, List.append_nil])
  rwa [List.map_nil, List.append_nil] at hlog

/-! ### Bytes already out and bits after them -/

/-- The bits that decode to the bytes of out. -/
def bytesBits (out : List Byte) : List Bit := messageBits (out.map BitVec.toNat)

theorem bytesBits_length (out : List Byte) : (bytesBits out).length = 8 * out.length := by
  rw [bytesBits, messageBits_length, List.length_map]

theorem groups8_bytesBits_append (out : List Byte) (l : List Bit) : groups8 (bytesBits out ++ l) = out ++ groups8 l := by
  have hbyte : ∀ c ∈ out.map BitVec.toNat, c ≤ 255 := by
    simp only [List.mem_map]
    rintro _ ⟨b, -, rfl⟩
    omega
  have hback : (out.map BitVec.toNat).map (BitVec.ofNat 8) = out := by
    rw [List.map_map]
    exact List.map_id'' (fun b => (BitVec.ofNat_toNat 8 b).trans (BitVec.setWidth_eq b)) out
  rw [bytesBits, groups8_messageBits hbyte, hback]

theorem tail8_bytesBits_append (out : List Byte) (l : List Bit) : tail8 (bytesBits out ++ l) = tail8 l := by
  have hcut : 8 * ((8 * out.length + l.length) / 8) = 8 * out.length + 8 * (l.length / 8) := by omega
  rw [tail8, List.length_append, bytesBits_length, hcut, ← bytesBits_length, List.drop_length_add_append]
  rfl

/-- The extractor of a session that had the bytes of out, and then took in the bits l (R75, R80). -/
structure CollectedAfter (out : List Byte) (l : List Bit) (e : Extractor) : Prop where
  out_eq : e.out = out ++ extractBits l
  count : e.count.toNat = e.out.length
  mark_iff : e.mark = true ↔ Config.markByte ∈ groups8 l
  cleared : e.mark = true → e.sr = 0#8 ∧ e.nb = 0
  pending : e.mark = false → pendingBits e = tail8 l

theorem CollectedAfter.of_collected {out : List Byte} {l : List Bit} {e : Extractor} (hout : Config.markByte ∉ out)
    (h : Collected (bytesBits out ++ l) e) : CollectedAfter out l e := by
  obtain ⟨hbytes, hcount, hmark, hclear, hpending⟩ := h
  rw [extractBits, groups8_bytesBits_append, decodeBytes_append, if_neg hout] at hbytes
  rw [groups8_bytesBits_append] at hmark
  rw [tail8_bytesBits_append, List.length_append, bytesBits_length] at hpending
  refine ⟨hbytes, hcount, by simpa [hout] using hmark, hclear, fun hm => ?_⟩
  obtain ⟨hnb, hsr⟩ := hpending hm
  have htail : (tail8 l).length = l.length % 8 := by simp [tail8]; omega
  exact pendingBits_eq (by omega) hsr

theorem tail8_short {l : List Bit} (h : l.length < 8) : tail8 l = l := by
  rw [tail8, Nat.div_eq_of_lt h]
  rfl

/-- Bits that fill one group and not a second (R36, R41). -/
theorem one_group {l : List Bit} (h : 8 ≤ l.length) (h' : l.length < 16) :
    groups8 l = [byteOf (l.take 8)] ∧ tail8 l = l.drop 8 := by
  have hlen : (l.take 8).length = 8 := List.length_take_of_le h
  constructor
  · conv_lhs => rw [← List.take_append_drop 8 l]
    rw [groups8_cons8 _ _ hlen, groups8_short (by simp; omega)]
  · rw [tail8, show l.length / 8 = 1 by omega]

/-- An open extractor before the marker stands where its own output and pending bits lead (R23, R25). -/
theorem ExtractorInv.collected {e : Extractor} (hinv : ExtractorInv e) (hm : e.mark = false) :
    Collected (bytesBits e.out ++ pendingBits e) e := by
  obtain ⟨hcount, hout, hsr, -, -⟩ := hinv
  have hlen := pendingBits_length e
  have hnb := e.nb.isLt
  have hgroups : groups8 (bytesBits e.out ++ pendingBits e) = e.out := by
    rw [groups8_bytesBits_append, groups8_short (by omega), List.append_nil]
  refine ⟨?_, hcount, by simp [hgroups, hm, hout], by simp [hm], fun _ => ⟨?_, ?_⟩⟩
  · rw [extractBits, hgroups, decodeBytes_of_not_mem hout]
  · rw [List.length_append, bytesBits_length, hlen]
    omega
  · rw [tail8_bytesBits_append, tail8_short (by omega), pendingBits_value e hsr]

/-- A pixel's LSBs join the pending bits (R80). -/
theorem collectPixel_after (r g b : Byte) {s : State} (hinv : ExtractorInv s.ex) (hm : s.ex.mark = false) :
    CollectedAfter s.ex.out (pendingBits s.ex ++ [lsb r, lsb g, lsb b]) (collectPixel r g b s).ex := by
  obtain ⟨hpix, hcount, -⟩ := hinv.counts
  have hgrid := grid_le s.ex.w s.ex.h
  have hcollected := hinv.collected hm
  obtain ⟨hlen, hout, -⟩ := hinv
  have hnb := s.ex.nb.isLt
  refine .of_collected hout ?_
  rw [← List.append_assoc]
  refine collectPixel_collected r g b hcollected ?_
  rw [List.length_append, bytesBits_length, pendingBits_length]
  omega

namespace CollectedAfter

variable {out : List Byte} {l : List Bit} {e : Extractor}

/-- Fewer than eight bits stay pending. -/
theorem of_short (h : CollectedAfter out l e) (hlen : l.length < 8) :
    e.mark = false ∧ e.out = out ∧ pendingBits e = l := by
  have hm : e.mark = false := by simpa [groups8_short hlen] using h.mark_iff
  exact ⟨hm, by simpa [extractBits, groups8_short hlen, decodeBytes] using h.out_eq, by rw [h.pending hm, tail8_short hlen]⟩

/-- The first group is the marker byte: it is not output (R76). -/
theorem of_marker (h : CollectedAfter out l e) (hlen : 8 ≤ l.length) (hlen' : l.length < 16)
    (hb : byteOf (l.take 8) = Config.markByte) : e.mark = true ∧ e.out = out := by
  obtain ⟨hgroups, -⟩ := one_group hlen hlen'
  exact ⟨h.mark_iff.mpr (by simp [hgroups, hb]), by simpa [extractBits, hgroups, decodeBytes, hb] using h.out_eq⟩

/-- The first group is any other byte: it is output, and the bits after it are pending. -/
theorem of_byte (h : CollectedAfter out l e) (hlen : 8 ≤ l.length) (hlen' : l.length < 16)
    (hb : byteOf (l.take 8) ≠ Config.markByte) :
    e.mark = false ∧ e.out = out ++ [byteOf (l.take 8)] ∧ pendingBits e = l.drop 8 := by
  obtain ⟨hgroups, htail⟩ := one_group hlen hlen'
  have hm : e.mark = false := by simpa [hgroups, Ne.symm hb] using h.mark_iff
  exact ⟨hm, by simpa [extractBits, hgroups, decodeBytes, hb] using h.out_eq, by rw [h.pending hm, htail]⟩

end CollectedAfter

/-- EX_COUNT changes with EX_OUT only (R23). -/
theorem CollectedAfter.count_eq {out : List Byte} {l : List Bit} {e e₀ : Extractor} (h : CollectedAfter out l e)
    (hcount : e₀.count.toNat = e₀.out.length) (hout : e.out = e₀.out) : e.count = e₀.count :=
  BitVec.eq_of_toNat_eq (by rw [h.count, hcount, hout])

/-! ### The channel in which a group completes -/

theorem lsb_toNat (v : Byte) : (lsb v).toNat = v.toNat % 2 := by
  rw [lsb, BitVec.getLsbD, Nat.toNat_testBit, Nat.pow_zero, Nat.div_one]

theorem bitsValue_join (a d : List Bit) : bitsValue (a ++ d) = bitsValue a * 2 ^ d.length + bitsValue d := by
  induction d using List.reverseRecOn with
  | nil => simp [bitsValue]
  | append_singleton d x ih =>
    rw [← List.append_assoc, bitsValue_append, bitsValue_append, ih, List.length_append, List.length_singleton, pow_succ]
    ring

/-- EX_SR stays inside its EX_NB bits. -/
theorem collectPixel_sr (r g b : Byte) {s : State} (h : s.ex.sr.toNat < 2 ^ s.ex.nb.val) :
    (collectPixel r g b s).ex.sr.toNat < 2 ^ (collectPixel r g b s).ex.nb.val :=
  collectBit_sr b _ (collectBit_sr g _ (collectBit_sr r s h))

/-- A pixel whose LSBs a complete the group c leaves its other LSBs d pending (R80). -/
theorem collectPixel_completes {r g b : Byte} {s : State} (hinv : ExtractorInv s.ex) (hm : s.ex.mark = false)
    {a d : List Bit} (hlsbs : [lsb r, lsb g, lsb b] = a ++ d) (hfill : s.ex.nb.val + a.length = 8) {c : Byte}
    (hc : c.toNat = s.ex.sr.toNat * 2 ^ a.length + bitsValue a) (hne : c ≠ 0xFE#8) :
    (collectPixel r g b s).ex.out = s.ex.out ++ [c] ∧ (collectPixel r g b s).ex.nb.val = d.length ∧
      (collectPixel r g b s).ex.sr.toNat = bitsValue d := by
  have hafter := collectPixel_after r g b hinv hm
  obtain ⟨-, -, hsr, -⟩ := hinv
  have hgroup : (pendingBits s.ex ++ a).length = 8 := by rw [List.length_append, pendingBits_length, hfill]
  have hthree : 3 = a.length + d.length := by simpa using congrArg List.length hlsbs
  have hlen : (pendingBits s.ex ++ a ++ d).length = 8 + d.length := by rw [List.length_append, hgroup]
  have hbyte : byteOf (pendingBits s.ex ++ a) = c := by
    rw [byteOf, bitsValue_join, pendingBits_value _ hsr, ← hc, BitVec.ofNat_toNat, BitVec.setWidth_eq]
  rw [hlsbs, ← List.append_assoc] at hafter
  have htake : (pendingBits s.ex ++ a ++ d).take 8 = pendingBits s.ex ++ a := by rw [← hgroup, List.take_left]
  have hdrop : (pendingBits s.ex ++ a ++ d).drop 8 = d := by rw [← hgroup, List.drop_left]
  obtain ⟨-, hout, hpending⟩ := hafter.of_byte (by omega) (by omega) (by rw [htake, hbyte]; exact hne)
  rw [htake, hbyte] at hout
  rw [hdrop] at hpending
  refine ⟨hout, ?_, ?_⟩
  · rw [← pendingBits_length, hpending]
  · rw [← pendingBits_value _ (collectPixel_sr r g b hsr), hpending]

/-! ### Counting the pixel -/

theorem pixcnt_add_one {e : Extractor} (hpix : e.pixcnt.toNat < e.w.toNat * e.h.toNat) :
    (counterAdd e.pixcnt 1).toNat = e.pixcnt.toNat + 1 := by
  have hgrid := grid_le e.w e.h
  exact counterAdd_toNat (by omega)

/-- The session of a reachable open extractor lacks a pixel (R20, R22). -/
theorem ExtractorInv.pixcnt_lt {e : Extractor} (hinv : ExtractorInv e) (hst : e.st = .active) :
    e.pixcnt.toNat < e.w.toNat * e.h.toNat := by
  obtain ⟨-, -, hactive⟩ := hinv.counts
  exact hactive hst

theorem closePixel_pixcnt {e : Extractor} (hpix : e.pixcnt.toNat < e.w.toNat * e.h.toNat) :
    (closePixel e).pixcnt.toNat = e.pixcnt.toNat + 1 := by
  rw [← pixcnt_add_one hpix, closePixel]
  split <;> rfl

/-- The grid's last pixel ends the session (R22, R80). -/
theorem closePixel_last {e : Extractor} (hpix : e.pixcnt.toNat < e.w.toNat * e.h.toNat)
    (hlast : e.pixcnt.toNat + 1 = e.w.toNat * e.h.toNat) :
    closePixel e = { e with pixcnt := counterAdd e.pixcnt 1, st := .done, sr := 0#8, nb := 0 } := by
  rw [closePixel, if_pos (by rw [pixcnt_add_one hpix, hlast])]

/-- Any other pixel is only counted. -/
theorem closePixel_more {e : Extractor} (hpix : e.pixcnt.toNat < e.w.toNat * e.h.toNat)
    (hmore : e.pixcnt.toNat + 1 ≠ e.w.toNat * e.h.toNat) : closePixel e = { e with pixcnt := counterAdd e.pixcnt 1 } := by
  rw [closePixel, if_neg (by rwa [pixcnt_add_one hpix])]

/-- While the session stays open the pending bits stay. -/
theorem closePixel_pendingBits {e : Extractor} (hst : (closePixel e).st = .active) :
    pendingBits (closePixel e) = pendingBits e := by
  unfold closePixel at hst ⊢
  split
  · next hlast => simp [hlast] at hst
  · rfl

theorem closePixel_cleared {e : Extractor} (hclear : e.sr = 0#8 ∧ e.nb = 0) :
    (closePixel e).sr = 0#8 ∧ (closePixel e).nb = 0 := by
  unfold closePixel
  split
  · exact ⟨rfl, rfl⟩
  · exact hclear

/-! ### A session -/

/-- The extractor of a session on a grid of w × h after the pixels of ps (R81). -/
structure SessionAfter (w h : Dim) (ps : List Pixel) (e : Extractor) : Prop where
  width : e.w = w
  height : e.h = h
  pixcnt : e.pixcnt.toNat = ps.length
  out : e.out = extractBits (streamLsbs ps)
  count : e.count.toNat = e.out.length
  mark_iff : e.mark = true ↔ Config.markByte ∈ groups8 (streamLsbs ps)
  st_done : ps.length = w.toNat * h.toNat → e.st = .done
  st_active : ps.length ≠ w.toNat * h.toNat → e.st = .active ∧ Collected (streamLsbs ps) e

theorem sessionAfter_openGrid {w h : Dim} (hw : 0 < w.toNat) (hh : 0 < h.toNat) (s : State) :
    SessionAfter w h [] (openGrid w h s).ex := by
  have hgrid := Nat.mul_pos hw hh
  have hcollected : Collected (streamLsbs []) (openGrid w h s).ex := by
    simp [Collected, streamLsbs, extractBits, groups8, decodeBytes, tail8, bitsValue, Extractor.reset]
  have ⟨hout, hcount, hmark, _⟩ := hcollected
  exact ⟨rfl, rfl, rfl, hout, hcount, hmark, fun hlast => absurd hlast hgrid.ne, fun _ => ⟨rfl, hcollected⟩⟩

theorem streamLsbs_snoc (ps : List Pixel) (p : Pixel) :
    streamLsbs (ps ++ [p]) = streamLsbs ps ++ [lsb p.r, lsb p.g, lsb p.b] := by
  simp [streamLsbs]

/-- One pixel more of the grid (R80). -/
theorem SessionAfter.snoc {w h : Dim} {ps : List Pixel} {s : State} (hs : SessionAfter w h ps s.ex)
    (hmore : ps.length < w.toNat * h.toNat) (p : Pixel) :
    ∃ t, exec (.exPix p.r p.g p.b) s = .next t ∧ SessionAfter w h (ps ++ [p]) t.ex ∧ t.bb = s.bb ∧ t.err = s.err := by
  have hgrid := grid_le w h
  obtain ⟨hst, hcollected⟩ := hs.st_active hmore.ne
  obtain ⟨hbb, -, herr, hst', hw, hh, hpix⟩ := collectPixel_frame p.r p.g p.b s
  have hnext := collectPixel_collected p.r p.g p.b hcollected (by rw [streamLsbs_length]; omega)
  rw [← streamLsbs_snoc] at hnext
  refine ⟨_, exec_exPix_open p.r p.g p.b hst, ?_, hbb, herr⟩
  generalize (collectPixel p.r p.g p.b s).ex = e at hst' hw hh hpix hnext
  rw [hs.width] at hw
  rw [hs.height] at hh
  have hlen : (ps ++ [p]).length = e.pixcnt.toNat + 1 := by simp [hpix, hs.pixcnt]
  have hlt : e.pixcnt.toNat < e.w.toNat * e.h.toNat := by rwa [hpix, hs.pixcnt, hw, hh]
  obtain ⟨hw', hh', hout', hcount', hmark'⟩ := closePixel_frame e
  have ⟨hout, hcount, hmark, _⟩ := hnext
  refine ⟨hw'.trans hw, hh'.trans hh, ?_, hout'.trans hout, ?_, ?_, fun hlast => ?_, fun hne => ?_⟩
  · rw [closePixel_pixcnt hlt, hlen]
  · rw [hcount', hout', hcount]
  · rw [hmark', hmark]
  · rw [hlen, ← hw, ← hh] at hlast
    rw [closePixel_last hlt hlast]
  · rw [hlen, ← hw, ← hh] at hne
    rw [closePixel_more hlt hne]
    exact ⟨hst'.trans hst, hnext⟩

/-- The command that sends a pixel (R64). -/
def Pixel.command (p : Pixel) : Instr := .exPix p.r p.g p.b

/-- EX_START and pixels of its grid, run from any state (R79, R80). -/
theorem run_session (s : State) {w h : Dim} (hw : 0 < w.toNat) (hh : 0 < h.toNat) (ps : List Pixel)
    (hps : ps.length ≤ w.toNat * h.toNat) (rest : List Instr) :
    ∃ t, runCommands (.exStart 0#2 w h :: (ps.map Pixel.command ++ rest)) s = runCommands rest t ∧
      SessionAfter w h ps t.ex ∧ t.bb = s.bb ∧ t.err = s.err := by
  induction ps using List.reverseRecOn generalizing rest with
  | nil =>
    have hopen := exec_exStart_accepted s (gridRejected_eq_false.mpr ⟨BitVec.toNat_zero, hw, hh⟩)
    exact ⟨_, run_presentWords_cons rest hopen, sessionAfter_openGrid hw hh s, rfl, rfl⟩
  | append_singleton ps p ih =>
    rw [List.length_append, List.length_singleton] at hps
    obtain ⟨t, hrun, hsession, hbb, herr⟩ := ih (by omega) (p.command :: rest)
    obtain ⟨t', hexec, hsession', hbb', herr'⟩ := hsession.snoc (by omega) p
    refine ⟨t', ?_, hsession', hbb'.trans hbb, herr'.trans herr⟩
    rw [List.map_append, List.append_assoc]
    exact hrun.trans (run_presentWords_cons rest hexec)

theorem Grid.lsbs_length (gr : Grid) : gr.lsbs.length = 3 * (gr.width * gr.height) := by
  rw [Grid.lsbs, List.length_map, traversal_length]

/-- The LSBs of a grid's first k pixels fill the first 3k / 8 of its groups (R81). -/
theorem groups8_streamLsbs_take (gr : Grid) (k : Nat) :
    groups8 (streamLsbs (gr.pixels.take k)) = (groups8 gr.lsbs).take (3 * k / 8) := by
  rw [streamLsbs_take, streamLsbs_pixels, groups8_take]

theorem groups8_lsbs_take_all (gr : Grid) :
    (groups8 gr.lsbs).take (3 * (gr.width * gr.height) / 8) = groups8 gr.lsbs :=
  List.take_of_length_le (by rw [groups8_length, gr.lsbs_length])

/-- Bytes after a marker byte are not decoded (R75). -/
theorem decodeBytes_take_of_mark_mem {l : List Byte} {n : Nat} (h : Config.markByte ∈ l.take n) :
    decodeBytes (l.take n) = decodeBytes l := by
  conv_rhs => rw [← List.take_append_drop n l, decodeBytes_append, if_pos h]

end Sys2Proof.Machine
end

section
/-! SUPPORT. The LSBs of a grid that the harness of spec/95_test_vectors.md L1.6 has written, and their groups
(spec/42_extractor.md R83). -/

namespace Sys2Proof.Machine

theorem Grid.lsbs_getElem (gr : Grid) {t : Nat} (ht : t < 3 * (gr.width * gr.height)) :
    gr.lsbs[t]? =
      some (lsb ((gr.pixel (t / 3 % gr.width) (t / 3 / gr.width)).value (Channel.ofIndex (t % 3)))) := by
  rw [Grid.lsbs, List.getElem?_map, traversal_getElem_of_lt ht]
  rfl

/-- The index of the pair at index t is t (R66). -/
theorem traversalIndex_place (w t : Nat) :
    traversalIndex w ⟨t / 3 % w, t / 3 / w, Channel.ofIndex (t % 3)⟩ = t := by
  have hpix : t / 3 / w * w + t / 3 % w = t / 3 := Nat.div_add_mod' _ _
  simp only [traversalIndex, Config.channels, hpix, Channel.index_ofIndex (Nat.mod_lt t (show 3 > 0 by decide))]
  omega

theorem lsb_embedChannel {bits : List Bit} {t : Nat} (ht : t < bits.length) (v : Byte) :
    lsb (embedChannel bits t v) = bits[t] := by
  rw [embedChannel, List.getElem?_eq_getElem ht]
  exact writeLsb_getLsbD v bits[t] 0

/-- The channels of the grid's pixels are those that embed writes (L1.6). -/
theorem embed_value {gr gr' : Grid} {bits : List Bit} (h : embed gr bits = some gr') {x y : Nat} (hx : x < gr.width)
    (hy : y < gr.height) (ch : Channel) :
    (gr'.pixel x y).value ch = embedChannel bits (traversalIndex gr.width ⟨x, y, ch⟩) ((gr.pixel x y).value ch) := by
  rw [embed, Option.ite_none_left_eq_some] at h
  obtain ⟨-, h⟩ := h
  obtain rfl := Option.some.inj h
  cases ch <;> simp [hx, hy, Pixel.value]

theorem embed_dims {gr gr' : Grid} {bits : List Bit} (h : embed gr bits = some gr') :
    gr'.width = gr.width ∧ gr'.height = gr.height ∧ bits.length ≤ 3 * (gr.width * gr.height) := by
  rw [embed, Option.ite_none_left_eq_some] at h
  obtain ⟨hroom, h⟩ := h
  obtain rfl := Option.some.inj h
  refine ⟨rfl, rfl, ?_⟩
  rw [← Nat.mul_assoc]
  exact Nat.not_lt.mp hroom

/-- The LSBs of a grid with an embedded stream begin with the stream (R69, L1.6). -/
theorem isPrefix_lsbs_of_embed {gr gr' : Grid} {bits : List Bit} (h : embed gr bits = some gr') : bits <+: gr'.lsbs := by
  obtain ⟨hw, hh, hroom⟩ := embed_dims h
  rw [List.prefix_iff_getElem?]
  intro t ht
  obtain ⟨hx, hy⟩ := col_row_lt (w := gr.width) (h := gr.height) (k := t / 3) (by omega)
  rw [gr'.lsbs_getElem (by rw [hw, hh]; omega), hw, embed_value h hx hy, traversalIndex_place, lsb_embedChannel ht]

/-- A stream that fits the grid embeds (L1.6). -/
theorem exists_embed {gr : Grid} {bits : List Bit} (hroom : bits.length ≤ 3 * gr.width * gr.height) :
    ∃ gr', embed gr bits = some gr' := by
  exact ⟨_, if_neg (Nat.not_lt.mpr hroom)⟩

/-- Decoding stops at the first marker byte (R75). -/
theorem decodeBytes_first_mark {a : List Byte} (b : List Byte) (ha : Config.markByte ∉ a) :
    decodeBytes (a ++ Config.markByte :: b) = a := by
  simp [decodeBytes_append, ha, decodeBytes]

theorem markByte_not_mem_map {m : List Nat} (hm : ∀ c ∈ m, c ≤ 255) (h : 254 ∉ m) :
    Config.markByte ∉ m.map (BitVec.ofNat 8) := by
  rw [List.mem_map]
  rintro ⟨c, hc, hmark⟩
  have hc254 : c % 256 = 254 := congrArg BitVec.toNat hmark
  have := hm c hc
  exact h (show 254 = c by omega ▸ hc)

/-- A grid with an embedded message decodes as the message's characters, 0xFF, the marker byte and what the grid held
(R40, R83). -/
theorem extract_embedded {gr gr' : Grid} {m : List Nat} (hm : ∀ c ∈ m, c ≤ 255)
    (h : embed gr (messageBits m ++ Config.marker) = some gr') :
    ∃ rest, extract gr' = decodeBytes (m.map (BitVec.ofNat 8) ++ 0xFF#8 :: Config.markByte :: rest) := by
  obtain ⟨l, hl⟩ := isPrefix_lsbs_of_embed h
  refine ⟨groups8 l, ?_⟩
  rw [extract, extractBits, ← hl, List.append_assoc, groups8_messageBits hm]
  rfl

end Sys2Proof.Machine
end

section
/-! The statements about the extractor, settled (spec/42_extractor.md). -/

namespace Sys2Proof.Machine

/-- Settles O19: the session is opened in every state, and the check then closes it or not. -/
theorem exStartOpensOrRejectsTheGrid : Obligations.ExStartOpensOrRejectsTheGrid :=
  ⟨fun _ _ _ s hmode hw hh => exec_exStart_accepted s (gridRejected_eq_false.mpr ⟨hmode, hw, hh⟩),
    fun _ _ _ s hbad => exec_exStart_rejected s (gridRejected_eq_true.mpr hbad), encode_exStart_toNat⟩

/-- Settles O20: in an open session the pixel's LSBs follow the pending bits, which with them fill one group or none. -/
theorem exPixConsumesTheNextPixel : Obligations.ExPixConsumesTheNextPixel := by
  refine ⟨fun r g b s hinv hst => ?_, fun r g b s => exec_exPix_stray r g b, fun r g b s => exec_exPix_ignored r g b,
    encode_exPix_toNat⟩
  have hexec := exec_exPix_open r g b hst
  have hafter := collectPixel_after r g b hinv
  obtain ⟨-, -, hsr, -⟩ := (exec_effect hexec).keeps_extractorInv hinv
  obtain ⟨hbb, hin, herr, hst', hw, hh, hpix⟩ := collectPixel_frame r g b s
  have hlt : (collectPixel r g b s).ex.pixcnt.toNat <
      (collectPixel r g b s).ex.w.toNat * (collectPixel r g b s).ex.h.toNat := by
    rw [hw, hh, hpix]
    exact hinv.pixcnt_lt hst
  have hlen : (pendingBits s.ex ++ [lsb r, lsb g, lsb b]).length < 16 := by
    simp [pendingBits_length]
    omega
  obtain ⟨hcount, -, -, hclear, -⟩ := hinv
  obtain ⟨hw', hh', hout', hcount', hmark'⟩ := closePixel_frame (collectPixel r g b s).ex
  refine ⟨_, hexec, hbb, herr, hin, hw'.trans hw, hh'.trans hh, ?_, hsr, fun hlast => ?_, fun hmore => ?_, fun hm => ?_,
    fun hm hshort => ?_, fun hm hfull hb => ?_, fun hm hfull hb => ?_⟩
  · rw [closePixel_pixcnt hlt, hpix]
  · rw [closePixel_last hlt (by rw [hpix, hw, hh, hlast])]
    exact ⟨rfl, rfl, rfl⟩
  · rw [closePixel_more hlt (by rwa [hpix, hw, hh])]
    exact hst'.trans hst
  · rw [collectPixel_mark r g b hm] at hout' hcount' hmark' ⊢
    obtain ⟨hsr₀, hnb₀⟩ := hclear hm
    obtain ⟨hsr', hnb'⟩ := closePixel_cleared (hclear hm)
    exact ⟨hmark'.trans hm, hout', hcount', hsr'.trans hsr₀.symm, hnb'.trans hnb₀.symm, rfl⟩
  · obtain ⟨hm', hout, hpending⟩ := (hafter hm).of_short hshort
    exact ⟨hmark'.trans hm', hout'.trans hout, hcount'.trans ((hafter hm).count_eq hcount hout),
      collectPixel_quiet r g b hout, fun hopen => (closePixel_pendingBits hopen).trans hpending⟩
  · obtain ⟨hm', hout⟩ := (hafter hm).of_marker hfull hlen hb
    exact ⟨hmark'.trans hm', hout'.trans hout, hcount'.trans ((hafter hm).count_eq hcount hout),
      collectPixel_quiet r g b hout, closePixel_cleared ((hafter hm).cleared hm')⟩
  · obtain ⟨hm', hout, hpending⟩ := (hafter hm).of_byte hfull hlen hb
    refine ⟨hmark'.trans hm', hout'.trans hout, ?_, collectPixel_portLog r g b hout,
      fun hopen => (closePixel_pendingBits hopen).trans hpending⟩
    rw [hcount', (hafter hm).count, hout, List.length_append, hcount]
    rfl

/-- Settles O21: of the three LSBs those that fill the group join EX_SR, and the others begin the next. -/
theorem groupCompletesInTheChannelThatNbGives : Obligations.GroupCompletesInTheChannelThatNbGives := by
  intro r g b s hinv hst hm hmore
  obtain ⟨-, -, -, -, hw, hh, hpix⟩ := collectPixel_frame r g b s
  rw [← hpix, ← hw, ← hh] at hmore
  have hclose := closePixel_more (by rw [hw, hh, hpix]; exact hinv.pixcnt_lt hst) hmore
  refine ⟨_, exec_exPix_open r g b hst, ?_⟩
  rw [hclose]
  refine ⟨fun c hnb hc hne => ?_, fun c hnb hc hne => ?_, fun c hnb hc hne => ?_⟩
  · exact collectPixel_completes hinv hm (a := [lsb r, lsb g, lsb b]) (d := []) rfl (by simp [hnb])
      (by simp [bitsValue, lsb_toNat]; omega) hne
  · obtain ⟨hout, hnb', hsr⟩ := collectPixel_completes hinv hm (a := [lsb r, lsb g]) (d := [lsb b]) rfl (by simp [hnb])
      (by simp [bitsValue, lsb_toNat]; omega) hne
    exact ⟨hout, hnb', hsr.trans (by simp [bitsValue, lsb_toNat])⟩
  · obtain ⟨hout, hnb', hsr⟩ := collectPixel_completes hinv hm (a := [lsb r]) (d := [lsb g, lsb b]) rfl (by simp [hnb])
      (by simp [bitsValue, lsb_toNat]; omega) hne
    exact ⟨hout, hnb', hsr.trans (by simp [bitsValue, lsb_toNat])⟩

/-- Settles O42: BB commands leave the extractor alone, and its own session decodes the groups of the pixels sent. -/
theorem extractorSessionComputesExtract : Obligations.ExtractorSessionComputesExtract := by
  intro gr k cs s hw hw' hh hh' hk hcs hex
  have hwn : (BitVec.ofNat 16 gr.width).toNat = gr.width := by rw [BitVec.toNat_ofNat]; omega
  have hhn : (BitVec.ofNat 16 gr.height).toNat = gr.height := by rw [BitVec.toNat_ofNat]; omega
  have hlen : (gr.pixels.take k).length = k := List.length_take_of_le (by rwa [gr.pixels_length])
  obtain ⟨u, hsession, hu, -, herr⟩ := run_session s (w := BitVec.ofNat 16 gr.width) (h := BitVec.ofNat 16 gr.height)
    (by omega) (by omega) (gr.pixels.take k) (by rwa [hlen, hwn, hhn]) []
  obtain ⟨t, -, v, hrun, -, hrunx, -, -, htv, hseqx, -⟩ := run_interleaved cs hcs (s := s) rfl rfl rfl rfl
  rw [List.append_nil] at hsession
  rw [hex] at hrunx
  obtain rfl : v = u := Host.Outcome.next.inj (hrunx.symm.trans hsession)
  obtain ⟨-, -, hpix, hout, hcount, hmark, hdone, hactive⟩ := hu
  rw [extractBits] at hout
  rw [groups8_streamLsbs_take] at hout hmark
  rw [hlen, hwn, hhn] at hdone hactive
  rw [← htv] at hpix hout hcount hmark hdone hactive
  refine ⟨t, hrun, by rw [hseqx, herr], hpix.trans hlen, hout, hcount, hmark, fun hm => ?_, fun hlt => ?_, fun hlast => ?_⟩
  · rw [hout, decodeBytes_take_of_mark_mem (hmark.mp hm)]
    rfl
  · exact (hactive hlt.ne).1
  · rw [hlast, groups8_lsbs_take_all] at hout hmark
    exact ⟨hdone hlast, hout, by rw [hcount, hout]; rfl, hmark⟩

/-- Settles O48: the bitstream's characters, 0xFF and 0xFE are the first groups of the grid it is embedded in. -/
theorem roundTripGivesTheMessageAndFF : Obligations.RoundTripGivesTheMessageAndFF := by
  intro gr m hm hroom
  obtain ⟨gr', hembed⟩ := exists_embed (gr := gr) (bits := messageBits m ++ Config.marker)
    (by rw [List.length_append, messageBits_length]; exact hroom)
  obtain ⟨rest, hextract⟩ := extract_embedded hm hembed
  refine ⟨_, gr', build_ok hm, hembed, fun h254 => ?_, fun j hj h254 => ?_⟩
  · have hmark : Config.markByte ∉ m.map (BitVec.ofNat 8) ++ [0xFF#8] := by
      rw [List.mem_append, not_or]
      exact ⟨markByte_not_mem_map hm h254, by decide⟩
    rw [hextract, ← decodeBytes_first_mark rest hmark, List.append_assoc]
    rfl
  · obtain ⟨hj, hjm⟩ := List.getElem?_eq_some_iff.mp hj
    have hmark := markByte_not_mem_map (fun c hc => hm c (List.mem_of_mem_take hc)) h254
    rw [hextract]
    conv_lhs => rw [← take_append_getElem_cons_drop hj, hjm, List.map_append, List.append_assoc]
    exact decodeBytes_first_mark _ hmark

end Sys2Proof.Machine
end

section
/-! SUPPORT. The words of a format N row's opcode other than the row's own word (spec/30_encoding.md R55, R61). -/

namespace Sys2Proof.Machine

/-- Every bit of a format N row is compared (R55, R59). -/
theorem mask_of_format_n : ∀ r ∈ opcodeTable, r.format = .n → r.mask = 0xFFFFFFFFFFFFFFFF#64 := by decide

/-- A format N row has one word; any other with its opcode has a reserved bit set (R61 case b). -/
theorem decode_reserved_of_format_n {r : OpcodeRow} (hr : r ∈ opcodeTable) (hf : r.format = .n) {w : CmdWord}
    (ho : w.toNat / 2 ^ 56 = r.pattern.toNat / 2 ^ 56) (hw : w ≠ r.pattern) : decode w = .error .reservedBitSet := by
  have hopc : fieldOpc w = fieldOpc r.pattern := (fieldOpc_eq_iff w r.pattern).mpr ho
  refine (decode_reserved_iff w).mpr ⟨r, hr, hopc, Bool.eq_false_iff.mpr fun hclear => hw ?_⟩
  have hmatch := (row_matches_iff hr w).mpr ⟨hopc, hclear⟩
  rwa [mask_of_format_n r hr hf, mask_all_iff] at hmatch

end Sys2Proof.Machine
end

section
/-! The statements about global control, settled (spec/43_control.md). -/

namespace Sys2Proof.Machine

/-- Settles O24: NOP's row has format N, so every other word with its opcode has a reserved bit set. -/
theorem nopChangesNothing : Obligations.NopChangesNothing := by
  refine ⟨fun _ => rfl, rfl, fun w s ho hw => ?_⟩
  have hdecode := decode_reserved_of_format_n (r := ⟨.NOP, .n, 0x0000000000000000#64, 0xFFFFFFFFFFFFFFFF#64⟩)
    (by decide) rfl ho hw
  exact ⟨hdecode, performWord_of_error s hdecode⟩

/-- Settles O25: ERR_CLR's row has format N, so every other word with its opcode is illegal and is not ERR_CLR. -/
theorem errClrClearsTheFlags : Obligations.ErrClrClearsTheFlags := by
  refine ⟨fun _ => rfl, rfl, fun w s ho hw => ?_⟩
  have hdecode := decode_reserved_of_format_n (r := ⟨.ERR_CLR, .n, 0x2000000000000000#64, 0xFFFFFFFFFFFFFFFF#64⟩)
    (by decide) rfl ho hw
  exact performWord_of_error s hdecode

end Sys2Proof.Machine
end

section
/-! SUPPORT. What a step keeps of a unit without an open session and of the host's side of the ports, and that a step always
answers a next state (spec/10_state.md R10, R17, R20; spec/60_exceptions.md R90, R94, R95). -/

namespace Sys2Proof.Machine

/-! ### A unit without an open session -/

/-- Of the builder's commands only BB_START changes a builder that is not ACTIVE (R91). -/
theorem BuilderEffectOf.keeps_closed {b : Builder} {i : Instr} {f : BuilderEffect} (h : BuilderEffectOf b i f)
    (hclosed : b.st ≠ .active) (hi : i ≠ .bbStart) : f.bb = b := by
  cases h with
  | opened => exact absurd rfl hi
  | stray | ignored => rfl
  | tooLarge hst | charOverflow hst | char hst | endOverflow hst | ended hst => exact absurd hst hclosed

/-- Of the extractor's commands only EX_START changes an extractor that is not ACTIVE (R91). -/
theorem ExtractorEffectOf.keeps_closed {e : Extractor} {i : Instr} {f : ExtractorEffect} (h : ExtractorEffectOf e i f)
    (hclosed : e.st ≠ .active) (hi : ∀ m w h, i ≠ .exStart m w h) : f.ex = e := by
  cases h with
  | opened | rejected => exact absurd rfl (hi _ _ _)
  | stray | ignored => rfl
  | pixel hst => exact absurd hst hclosed

namespace StepEffect

variable {s t : State} {x : Option HostInput}

theorem keeps_closed_builder (h : StepEffect s x t) (hclosed : s.bb.st ≠ .active) (hreset : x ≠ some .reset)
    (hstart : x ≠ some (.cmd (encode .bbStart))) : t.bb = s.bb := by
  cases h with
  | builder hf => exact hf.keeps_closed hclosed fun hi => hstart (by rw [hi])
  | reset => exact absurd rfl hreset
  | _ => rfl

theorem keeps_closed_extractor (h : StepEffect s x t) (hclosed : s.ex.st ≠ .active) (hreset : x ≠ some .reset)
    (hstart : ∀ m w h, x ≠ some (.cmd (encode (.exStart m w h)))) : t.ex = s.ex := by
  cases h with
  | extractor hf => exact hf.keeps_closed hclosed fun m w h hi => hstart m w h (by rw [hi])
  | reset => exact absurd rfl hreset
  | _ => rfl

/-! ### The host's side of the ports -/

/-- Performing an input leaves the inputs after it (R48). -/
theorem keeps_hostIn (h : StepEffect s x t) : t.hostIn = s.hostIn := by
  cases h <;> rfl

/-- What was emitted stays emitted (R48, R100). -/
theorem portLog_prefix (h : StepEffect s x t) : s.portLog <+: t.portLog := by
  cases h with
  | waiting | nop | errClr | illegal | reset => exact List.prefix_rfl
  | builder | extractor | readStat => exact List.prefix_append _ _

end StepEffect

/-! ### Every step answers -/

/-- An illegal word that the host presents is taken and sets ERR_ILL (R90). -/
theorem step_of_illegal {s : State} {w : CmdWord} {rest : List HostInput} {e : IllegalWord} (hin : s.hostIn = .cmd w :: rest)
    (hw : decode w = .error e) : step s = .next { s with hostIn := rest, err := { s.err with ill := true } } := by
  have hstep : step s = performWord w { s with hostIn := rest } := by simp [step, takeNextInput, hin, performInput]
  rw [hstep, performWord_of_error _ hw]

/-- A RESET event that the host presents is performed (R100). -/
theorem step_of_reset {s : State} {rest : List HostInput} (hin : s.hostIn = .reset :: rest) :
    step s = .next (takeReset { s with hostIn := rest }) := by
  simp [step, takeNextInput, hin, performInput]

/-- No step traps or refuses: an error is a value in the state (R94). -/
theorem exists_step (s : State) : ∃ t, step s = .next t := by
  match hin : s.hostIn with
  | [] => exact ⟨s, stepWaitsForTheHost s hin⟩
  | .cmd w :: rest =>
    cases hw : decode w with
    | ok i =>
      obtain ⟨t, -, hexec, -⟩ := exec_host_side i { s with hostIn := rest }
      exact ⟨t, (step_of_decode hin hw).trans hexec⟩
    | error e => exact ⟨_, step_of_illegal hin hw⟩
  | .reset :: rest => exact ⟨_, step_of_reset hin⟩
  | .readStat idx :: rest => exact ⟨_, step_of_readStat hin⟩

end Sys2Proof.Machine
end

section
/-! The statements about errors, settled (spec/60_exceptions.md). -/

namespace Sys2Proof.Machine

/-- Settles O13: a step answers whatever the next input is, and each effect only adds to what the ports carried. -/
theorem everyStepAnswersNext : Obligations.EveryStepAnswersNext := by
  intro s
  obtain ⟨t, hstep⟩ := exists_step s
  exact ⟨t, hstep, (step_effect hstep).keeps_hostIn, (step_effect hstep).portLog_prefix⟩

/-- Settles O35: of the effects a step can have, those that write a closed unit are its START command's and a reset's. -/
theorem closedUnitsChangeOnlyByStartOrReset : Obligations.ClosedUnitsChangeOnlyByStartOrReset :=
  ⟨fun _ _ h hclosed hreset hstart => (step_effect h).keeps_closed_builder hclosed hreset hstart,
    fun _ _ h hclosed hreset hstart => (step_effect h).keeps_closed_extractor hclosed hreset hstart⟩

/-- Settles O9: the word is taken and does not decode. -/
theorem illegalWordSetsOnlyErrIll : Obligations.IllegalWordSetsOnlyErrIll :=
  fun _ _ _ _ hin hw => step_of_illegal hin hw

/-- Settles O17: a data command looks at its unit's state before its operands. -/
theorem strayDataCommandsOnlySetTheUnitsFlag : Obligations.StrayDataCommandsOnlySetTheUnitsFlag := by
  refine ⟨?_, ?_, ?_, ?_⟩
  · rintro s i (⟨cp, rfl⟩ | rfl) hst
    · exact exec_bbData_stray rfl nofun hst
    · exact exec_bbData_stray rfl nofun hst
  · rintro s i (⟨cp, rfl⟩ | rfl) hst
    · exact exec_bbData_ignored rfl nofun hst
    · exact exec_bbData_ignored rfl nofun hst
  · rintro s i ⟨r, g, b, rfl⟩ hst
    exact exec_exPix_stray r g b hst
  · rintro s i ⟨r, g, b, rfl⟩ hst
    exact exec_exPix_ignored r g b hst

/-- Settles O18: the code point decides in an open session whatever the counter holds, and in no other state is it read. -/
theorem encodingErrorComesBeforeOverflow : Obligations.EncodingErrorComesBeforeOverflow := by
  intro cp s hcp _
  cases hst : s.bb.st with
  | active => rw [(BuilderEffectOf.tooLarge hst (codePointTooLarge_eq_true.mpr hcp)).exec_eq, BuilderEffect.applyTo_quiet]
  | idle => exact exec_bbData_stray rfl nofun (.inl hst)
  | done => exact exec_bbData_stray rfl nofun (.inr hst)
  | encErr => exact exec_bbData_ignored rfl nofun (.inl hst)
  | ovfErr => exact exec_bbData_ignored rfl nofun (.inr hst)

end Sys2Proof.Machine
end

section
/-! SUPPORT. What the registers read after a RESET event, when a session has a result, and the grid whose
stream is a given list of pixels (spec/10_state.md R27; spec/70_reset_and_hazards.md R100, R102, R104). -/

namespace Sys2Proof.Machine

/-- After a RESET event the registers read as after power-on (R100). -/
theorem stat_takeReset (s : State) (idx : StatIndex) : stat (takeReset s) idx = 0#32 :=
  (stat_congr (s := State.reset) rfl rfl rfl idx).trans (stat_reset idx)

/-! ### Results -/

theorem bbResult_eq_none_iff (s : State) : bbResult s = none ↔ s.bb.st = .idle ∨ s.bb.st = .active := by
  cases hst : s.bb.st <;> simp [bbResult, hst]

theorem bbResult_eq_bitstream_iff (s : State) (bits : List Bit) :
    bbResult s = some (.bitstream bits) ↔ s.bb.st = .done ∧ s.bb.out = bits := by
  cases hst : s.bb.st <;> simp [bbResult, hst]

/-- In a builder that meets its invariant the record of a DONE session is build of a message (R18). -/
theorem BuilderInv.exists_build {b : Builder} (hinv : BuilderInv b) (hst : b.st = .done) : ∃ m, build m = .ok b.out := by
  obtain ⟨-, hsession⟩ := hinv
  rw [hst] at hsession
  obtain ⟨m, -, hbuild⟩ := hsession
  exact ⟨m, hbuild⟩

/-- Before the first session there is no marker (R24). -/
theorem ExtractorInv.mark_of_idle {e : Extractor} (hinv : ExtractorInv e) (hst : e.st = .idle) : e.mark = false := by
  obtain ⟨-, -, -, -, hsession⟩ := hinv
  rw [hst] at hsession
  rw [hsession]
  rfl

/-- In an open session EX_MARK decides, in every other EX_ST value the state alone (R102). -/
theorem exResult_eq_none_iff (s : State) :
    exResult s = none ↔ s.ex.st = .idle ∨ s.ex.st = .active ∧ s.ex.mark = false := by
  cases hst : s.ex.st <;> simp [exResult, hst]

/-! ### The grid of a stream -/

/-- The grid of width w and height h whose pixel (x, y) is number y*w + x of ps; past the end of ps its pixels are black
(R67, R104). -/
def gridOfStream (w h : Nat) (ps : List Pixel) : Grid where
  width := w
  height := h
  pixel x y := ps.getD (y * w + x) ⟨0#8, 0#8, 0#8⟩

/-- A list of w*h pixels is the stream of its grid (R104). -/
theorem gridOfStream_pixels {w h : Nat} {ps : List Pixel} (hlen : ps.length = w * h) : (gridOfStream w h ps).pixels = ps := by
  refine List.ext_getElem (by rw [Grid.pixels_length, hlen]; rfl) fun k _ hk => Option.some.inj ?_
  have hplace : k / w * w + k % w = k := Nat.div_add_mod' _ _
  rw [← List.getElem?_eq_getElem, (gridOfStream w h ps).pixels_getElem_of_lt (hlen ▸ hk)]
  simp [gridOfStream, hplace, hk]

end Sys2Proof.Machine
end

section
/-! The statements about reset and hazards, settled (spec/70_reset_and_hazards.md). -/

namespace Sys2Proof.Machine

/-- Settles O33: by the session state, with the invariants for what DONE has recorded and for EX_MARK in IDLE. -/
theorem resultsAreThoseOfTheSessionStates : Obligations.ResultsAreThoseOfTheSessionStates := by
  refine ⟨bbResult_eq_none_iff, fun s bits hinv hresult => ?_, fun s hinv => ?_⟩
  · obtain ⟨hst, rfl⟩ := (bbResult_eq_bitstream_iff s bits).mp hresult
    have hbuild := hinv.exists_build hst
    obtain ⟨hcount, -⟩ := hinv
    exact ⟨hst, hcount, hbuild⟩
  · rw [exResult_eq_none_iff, or_and_right, and_iff_left_of_imp hinv.mark_of_idle]

/-- Settles O43: the pixels sent are the stream of gridOfStream, and the session decodes the stream's LSBs. -/
theorem anyPixelStreamIsTheExtractionOfItsOwnGrid : Obligations.AnyPixelStreamIsTheExtractionOfItsOwnGrid := by
  intro w h ps s hw hw' hh hh' hlen
  have hwn : (BitVec.ofNat 16 w).toNat = w := by rw [BitVec.toNat_ofNat]; omega
  have hhn : (BitVec.ofNat 16 h).toNat = h := by rw [BitVec.toNat_ofNat]; omega
  have hall : ps.length = (BitVec.ofNat 16 w).toNat * (BitVec.ofNat 16 h).toNat := by rw [hwn, hhn, hlen]
  have hpixels := gridOfStream_pixels hlen
  obtain ⟨t, hrun, hsession, hbb, herr⟩ := run_session s (by omega) (by omega) ps hall.le []
  rw [List.append_nil] at hrun
  have hout : t.ex.out = extract (gridOfStream w h ps) := by
    rw [hsession.out, extract, ← streamLsbs_pixels, hpixels]
  exact ⟨gridOfStream w h ps, t, rfl, rfl, hpixels, hrun, hsession.st_done hall, hout, herr, hbb⟩

/-- Settles O10: a RESET event gives the fields of the reset state and leaves what the ports carried. -/
theorem resetSetsEveryField : Obligations.ResetSetsEveryField :=
  ⟨fun _ _ hin => ⟨_, step_of_reset hin, rfl, rfl, rfl, rfl, stat_takeReset _⟩, rfl, rfl, rfl, stat_reset⟩

end Sys2Proof.Machine
end
